-- ==== Sys2Proof/Word.lean ====
section
/-! DEFINITION. Words of the machine: the fixed widths of 00_scope.md R4 and R5, and the plain types that
carry a value the spec does not treat as bits (a round index, the direction of a pass). -/

namespace Sys2Proof

/-- A 12-bit block (BLOCK_W, R4): the operand and the result of a cipher command. -/
abbrev Block := BitVec 12

/-- A 6-bit half of a block (HALF_W, R4). -/
abbrev Half := BitVec 6

/-- A 9-bit master key (KEY_W, R4). -/
abbrev MasterKey := BitVec 9

/-- An 8-bit round key (RK_W, R4); also the width EXP_OUT of the expansion's output. -/
abbrev RoundKeyWord := BitVec 8

/-- A 4-bit S-box address (SBOX_ADDR_W, R4): one row bit above three column bits (R28). -/
abbrev SboxAddress := BitVec 4

/-- A 3-bit S-box word (SBOX_OUT_W, R4). -/
abbrev SboxWord := BitVec 3

/-- A 24-bit command word (CW_W, R5). -/
abbrev CommandWord := BitVec 24

/-- A 4-bit field of a command word: the opcode (OP_W) or a round index field (RND_W), R5. -/
abbrev Nibble := BitVec 4

/-- The 3-bit fault code (ERR_W, R5). -/
abbrev FaultCode := BitVec 3

/-- The 8-bit status register (STATUS_W, R5). -/
abbrev StatusWord := BitVec 8

/-- A round index `i ≥ 1` (R59, R67), held as `t = i - 1` (the `t` of R60), so that an index below 1 has no
inhabitant: the treatment `refuse` of 93_implementation_defined.md U8. -/
@[ext] structure RoundIndex where
  t : Nat
  deriving DecidableEq, Repr

/-- The 1-based number of the round. -/
def RoundIndex.i (x : RoundIndex) : Nat := x.t + 1

/-- The direction of a pass (R69): the round index increments in an encryption pass and decrements in a
decryption pass. -/
inductive Direction where
  | encryption
  | decryption
  deriving DecidableEq, Repr, Inhabited

/-- The round sequencer (10_state.md R19): the current round index, "a mathematical integer" with no fixed
width, and the direction of the pass. After the last round the index may lie outside the legal round
indices, so it is a Nat and not a `RoundIndex`. -/
structure Sequencer where
  index : Nat
  direction : Direction
  deriving DecidableEq, Repr, Inhabited

end Sys2Proof
end

