-- ==== Sys2Proof/Syntax.lean ====
section
/-! DEFINITION. The commands of the engine: one constructor per row of spec/opcode_table.json. Operands are the
fields of the command word as Decode takes them (30_encoding.md R48); their legality is checked by the
command's own rule (R45), not here. -/

namespace Sys2Proof

/-- The four host commands (30_encoding.md R44). -/
inductive Instr where
  /-- `LDKEY k` (R78): load the master key; `data` is the whole DATA field, legal when it is below 512. -/
  | ldkey (data : BitVec 12)
  /-- `ENC v` (R79): encrypt one block. -/
  | enc (data : BitVec 12)
  /-- `DEC v` (R80): decrypt one block. -/
  | dec (data : BitVec 12)
  /-- `PROC v, s, e` (R81): one pass from round `sr` to round `er`, each legal when it is not 0. -/
  | proc (data : BitVec 12) (sr er : BitVec 4)
  deriving DecidableEq, Repr

end Sys2Proof
end

