-- ==== Sys2Proof/WellFormed.lean ====
section
/-! DEFINITION. Well-formed commands: every operand at a legal value of the table of 30_encoding.md R45. That an
operand fits its field is already in its type, so every command, well-formed or not, has a word; one that is
not well-formed decodes, and raises RangeViolation when it is executed (60_exceptions.md R86). -/

namespace Sys2Proof

/-- A key operand is legal when `DATA < 512` (R45). -/
def legalKeyData (data : BitVec 12) : Bool := decide (data.toNat < 512)

/-- A round operand is legal in 1..15 (R45). -/
def legalRoundField (x : BitVec 4) : Bool := decide (1 ≤ x.toNat)

/-- Every operand of the command is at a legal value (R45). -/
def Instr.wellFormed : Instr → Bool
  | .ldkey data => legalKeyData data
  | .enc _ => true
  | .dec _ => true
  | .proc _ sr er => legalRoundField sr && legalRoundField er

end Sys2Proof
end

