-- ==== Sys2Proof/Decode.lean ====
section
/-! DEFINITION. The decoder of 30_encoding.md R48, total on 24-bit words, rejecting by name; the encoder, from the
formula of R43; and the decode patterns of R44 as a table of masks and matches. -/

namespace Sys2Proof

/-- Why a word is illegal (R46). Both reasons raise IllegalCommand (60_exceptions.md R85). -/
inductive IllegalWord where
  /-- `OP` is 0 or 5..15: one of the twelve undefined opcodes. -/
  | undefinedOpcode
  /-- `OP` is `LDKEY`, `ENC` or `DEC` and `SR` or `ER` is not 0. -/
  | reservedFieldNotZero
  deriving DecidableEq, Repr

/-- `OP = cw[23:20]` (R43). -/
def opField (cw : CommandWord) : Nibble := cw.extractLsb' 20 4

/-- `SR = cw[19:16]` (R43). -/
def srField (cw : CommandWord) : Nibble := cw.extractLsb' 16 4

/-- `ER = cw[15:12]` (R43). -/
def erField (cw : CommandWord) : Nibble := cw.extractLsb' 12 4

/-- `DATA = cw[11:0]` (R43). -/
def dataField (cw : CommandWord) : BitVec 12 := cw.extractLsb' 0 12

/-- `cw = (OP << 20) + (SR << 16) + (ER << 12) + DATA` (R43): the four fields side by side, with no carry. -/
def packFields (op sr er : Nibble) (data : BitVec 12) : CommandWord :=
  BitVec.ofNat 24 ((op.toNat <<< 20) + (sr.toNat <<< 16) + (er.toNat <<< 12) + data.toNat)

/-- `Decode` (R48): it reads no state, and makes no range check. -/
def decode (cw : CommandWord) : Except IllegalWord Instr :=
  if opField cw = 4 then
    .ok (.proc (dataField cw) (srField cw) (erField cw))
  else if opField cw = 1 ∨ opField cw = 2 ∨ opField cw = 3 then
    if srField cw = 0 ∧ erField cw = 0 then
      if opField cw = 1 then .ok (.ldkey (dataField cw))
      else if opField cw = 2 then .ok (.enc (dataField cw))
      else .ok (.dec (dataField cw))
    else .error .reservedFieldNotZero
  else .error .undefinedOpcode

/-- The word of a command (R43, R44). -/
def encode : Instr → CommandWord
  | .ldkey data => packFields 1 0 0 data
  | .enc data => packFields 2 0 0 data
  | .dec data => packFields 3 0 0 data
  | .proc data sr er => packFields 4 sr er data

/-- The word's decoding, as the host asks for it. A number that is no 24-bit value is no command word (R43,
R49: "never truncated"), and neither is one of another length (R47). -/
def decodeTableWord (nbits w : Nat) : Option Instr :=
  if nbits = 24 ∧ w < 2 ^ 24 then (decode (BitVec.ofNat 24 w)).toOption else none

/-- A decode pattern of R44: a word `cw` is the named command iff `cw & mask = pattern`. -/
structure OpcodeRow where
  mnemonic : String
  mask : CommandWord
  pattern : CommandWord
  deriving DecidableEq, Repr

/-- The row of `LDKEY` (R44). -/
def ldkeyRow : OpcodeRow := ⟨"LDKEY", 0xFFF000, 0x100000⟩

/-- The row of `ENC` (R44). -/
def encRow : OpcodeRow := ⟨"ENC", 0xFFF000, 0x200000⟩

/-- The row of `DEC` (R44). -/
def decRow : OpcodeRow := ⟨"DEC", 0xFFF000, 0x300000⟩

/-- The row of `PROC` (R44). -/
def procRow : OpcodeRow := ⟨"PROC", 0xF00000, 0x400000⟩

/-- The decode patterns of R44, in the table's order. -/
def opcodeTable : List OpcodeRow := [ldkeyRow, encRow, decRow, procRow]

/-- The word matches the row's pattern (R44). -/
def OpcodeRow.covers (row : OpcodeRow) (cw : CommandWord) : Bool := cw &&& row.mask == row.pattern

/-- The row of a command. -/
def Instr.row : Instr → OpcodeRow
  | .ldkey _ => ldkeyRow
  | .enc _ => encRow
  | .dec _ => decRow
  | .proc _ _ _ => procRow

end Sys2Proof
end

