-- ==== Sys2Proof/Machine/KeySchedule.lean ====
section
/-! DEFINITION. KeySchedule (42_key_schedule.md): the round key of a round index. -/

namespace Sys2Proof.Machine

/-- `index = t mod 9` (R60). -/
def rotationIndex (i : RoundIndex) : Nat := i.t % 9

/-- `rotated = (low << index) + high` (R60), computed on naturals as SD writes it: the 9-bit key rotated left by
`index`. -/
def rotatedKey (k : MasterKey) (index : Nat) : Nat :=
  let high := k.toNat >>> (9 - index)
  let low := k.toNat % 2 ^ (9 - index)
  (low <<< index) + high

/-- `RoundKey(k, i)` (R60): the rotated key without its lowest bit. -/
def roundKey (k : MasterKey) (i : RoundIndex) : RoundKeyWord :=
  BitVec.ofNat 8 (rotatedKey k (rotationIndex i) >>> 1)

end Sys2Proof.Machine
end

