-- ==== Sys2Proof/Machine/Expander.lean ====
section
/-! DEFINITION. BitExpander (40_bit_expander.md): the fixed wiring of 6 bits to 8. -/

namespace Sys2Proof.Machine

/-- The ExpansionMap (R51): for each input bit (by index, in R52's order of tests) the output bits it sets, as
the 8-bit value of their weights. -/
def expansionMap : List (Nat × BitVec 8) :=
  [(5, 128), (4, 64), (3, 16 + 4), (2, 32 + 8), (1, 2), (0, 1)]

/-- One test of R52: where the input bit is set, its target bits are added to the accumulator. -/
def expandBit (x : Half) (y : BitVec 8) (entry : Nat × BitVec 8) : BitVec 8 :=
  if x.getLsbD entry.1 then y + entry.2 else y

/-- `Expand(x)` (R52): the accumulator starts at 0. -/
def expand (x : Half) : BitVec 8 := expansionMap.foldl (expandBit x) 0

/-- A map is well formed (the initialization check that R89 asks of a table-parametric model): each of the six
input bits has a target set that is not empty, the sets are pairwise disjoint, and together they cover the
eight output bits. -/
def expansionMapWellFormed (m : List (Nat × BitVec 8)) : Bool :=
  m.map Prod.fst == [5, 4, 3, 2, 1, 0] && m.all (fun e => e.2 != 0) &&
    decide (m.Pairwise fun a b => a.2 &&& b.2 = 0) && m.foldl (fun y e => y ||| e.2) 0 == 255

end Sys2Proof.Machine
end

