-- ==== Sys2Proof/Machine/SBox.lean ====
section
/-! DEFINITION. SBoxPair (41_sbox_pair.md) and the two ROMs it is (20_memory.md R27 to R30). Constants, not state. -/

namespace Sys2Proof.Machine

/-- The two S-boxes, numbered 1 and 2 (R54, R57). -/
inductive Box where
  | one
  | two
  deriving DecidableEq, Repr

/-- The tables as SD lists them, row 0 then row 1, each indexed by column from the left (R55, R56). -/
def sboxTable : Box → Vector (Vector SboxWord 8) 2
  | .one => #v[#v[5, 2, 1, 6, 3, 4, 7, 0], #v[1, 4, 6, 2, 0, 7, 5, 3]]
  | .two => #v[#v[4, 0, 6, 5, 7, 1, 3, 2], #v[5, 3, 0, 7, 6, 2, 1, 4]]

/-- `SLookup(b, row, col)` (R54): row and column are typed at their widths, so no argument is out of range
(R57). -/
def sLookup (b : Box) (row : BitVec 1) (col : BitVec 3) : SboxWord :=
  ((sboxTable b).get row.toFin).get col.toFin

/-- The ROMs' words, listed by address 0..15 (R29). -/
def romTable : Box → Vector SboxWord 16
  | .one => #v[5, 2, 1, 6, 3, 4, 7, 0, 1, 4, 6, 2, 0, 7, 5, 3]
  | .two => #v[4, 0, 6, 5, 7, 1, 3, 2, 5, 3, 0, 7, 6, 2, 1, 4]

/-- `RomRead(b, a)` (R29): every 4-bit address is populated. -/
def romRead (b : Box) (a : SboxAddress) : SboxWord := (romTable b).get a.toFin

/-- `row = half >> 3` (R28, R65 step 4). -/
def addressRow (a : SboxAddress) : BitVec 1 := a.extractLsb' 3 1

/-- `col = half & 7` (R28, R65 step 4). -/
def addressCol (a : SboxAddress) : BitVec 3 := a.extractLsb' 0 3

end Sys2Proof.Machine
end

