-- ==== Sys2Proof/Machine/RoundFunction.lean ====
section
/-! DEFINITION. RoundFunction f (43_round_function.md): expansion, key XOR, S-boxes. -/

namespace Sys2Proof.Machine

/-- Steps 3 to 6 of R65, on the XOR result `X`: the high half to S-box 1, the low half to S-box 2, the result
`(s1 << 3) + s2` without a carry. -/
def substitute (x : BitVec 8) : Half :=
  let left4 : SboxAddress := x.extractLsb' 4 4
  let right4 : SboxAddress := x.extractLsb' 0 4
  let s1 := sLookup .one (addressRow left4) (addressCol left4)
  let s2 := sLookup .two (addressRow right4) (addressCol right4)
  BitVec.ofNat 6 ((s1.toNat <<< 3) + s2.toNat)

/-- `F(r, K)` (R65). -/
def roundFunction (r : Half) (k : RoundKeyWord) : Half := substitute (k ^^^ expand r)

end Sys2Proof.Machine
end

