-- ==== Sys2Proof/Machine/Feistel.lean ====
section
/-! DEFINITION. FeistelEngine (44_feistel_engine.md), the function layer: pure functions of their arguments
(00_scope.md R10). -/

namespace Sys2Proof.Machine

/-- The pair `(L, R)` of a block's halves. -/
structure Halves where
  l : Half
  r : Half
  deriving DecidableEq, Repr

/-- The initial split (R68): `L` is the high half. -/
def split (v : Block) : Halves := ⟨v.extractLsb' 6 6, v.extractLsb' 0 6⟩

/-- The final assembly (R71): `(R << 6) + L`, the halves swapped relative to the split. -/
def assemble (p : Halves) : Block := BitVec.ofNat 12 ((p.r.toNat <<< 6) + p.l.toNat)

/-- One round of a Feistel network whose round function's output is `g`: `newL = R`, `newR = g(R) xor L`, both
from the old pair (R70). -/
def feistelRound (g : Half → Half) (p : Halves) : Halves := ⟨p.r, g p.r ^^^ p.l⟩

/-- `RoundStep(k, i, (L, R))` (R70). -/
def roundStep (k : MasterKey) (i : RoundIndex) (p : Halves) : Halves :=
  feistelRound (fun r => roundFunction r (roundKey k i)) p

/-- An encryption pass when `startRound ≤ endRound`, else a decryption pass (R69). -/
def passDirection (s e : RoundIndex) : Direction :=
  if s.i ≤ e.i then .encryption else .decryption

/-- The number of rounds of a pass, `|s − e| + 1` (R67, R69): at least one. -/
def roundCount (s e : RoundIndex) : Nat :=
  match passDirection s e with
  | .encryption => e.i - s.i + 1
  | .decryption => s.i - e.i + 1

/-- The round `n` places after `s` in a pass of the direction. -/
def nthRound (d : Direction) (s : RoundIndex) (n : Nat) : RoundIndex :=
  match d with
  | .encryption => ⟨s.t + n⟩
  | .decryption => ⟨s.t - n⟩

/-- `Rounds(s, e)` (R69): the round indices visited, in order. -/
def rounds (s e : RoundIndex) : List RoundIndex :=
  (List.range (roundCount s e)).map (nthRound (passDirection s e) s)

/-- `Process(v, k, s, e)` (R72). -/
def process (v : Block) (k : MasterKey) (s e : RoundIndex) : Block :=
  assemble ((rounds s e).foldl (fun p i => roundStep k i p) (split v))

/-- The same pass for any round function: what R73 says the inverse law needs, "for every `F` whatever". -/
def networkPass (g : RoundIndex → Half → Half) (v : Block) (s e : RoundIndex) : Block :=
  assemble ((rounds s e).foldl (fun p i => feistelRound (g i) p) (split v))

/-- Round 1. -/
def roundOne : RoundIndex := ⟨0⟩

/-- Round 2. -/
def roundTwo : RoundIndex := ⟨1⟩

/-- `Encrypt(p, k) = Process(p, k, 1, 2)` (R74). -/
def encrypt (p : Block) (k : MasterKey) : Block := process p k roundOne roundTwo

/-- `Decrypt(c, k) = Process(c, k, 2, 1)` (R74). -/
def decrypt (c : Block) (k : MasterKey) : Block := process c k roundTwo roundOne

/-- One row of the ghost trace of R76: the round, its key and the pair after the round step. For proofs and tests
only; nothing in the hardware shows it. -/
structure TraceRow where
  index : Nat
  key : RoundKeyWord
  halves : Halves
  deriving DecidableEq, Repr

/-- The ghost trace of the rounds `is` from the pair `p` (R76). -/
def ghostTrace (k : MasterKey) : List RoundIndex → Halves → List TraceRow
  | [], _ => []
  | i :: is, p => ⟨i.i, roundKey k i, roundStep k i p⟩ :: ghostTrace k is (roundStep k i p)

end Sys2Proof.Machine
end

