-- ==== Sys2Proof/Config.lean ====
section
/-! DEFINITION. What the spec leaves open: the free values. Each is an opaque constant with no body, so that no
proof can rest on what it is (treatment `any value` of 93_implementation_defined.md U9). A free value
that is drawn again and again is applied to the state's counter `draws`, which advances at each draw: two draws of
one engine need not agree. That the counter alone picks the value, so that two engines with equal counters draw equal
values, and that one constant stands for a flag at power-up, is the model's choice (DESIGN CHOICE of form, log entry 17).
The algorithm's parameters (R4) are constants and stand in the types of Word.lean and in the function layer;
LAT (R5, R105) is read by no rule and has no counterpart (log entry 7). -/

namespace Sys2Proof.Config

/-- What `KEY` holds after a Reset inside a run, and at power-up: "unspecified" (R26, R99, R100). Log entries
3 and 6. -/
opaque unspecifiedKey : Nat → MasterKey

/-- What `DOUT` holds after a Reset inside a run, and at power-up: "unspecified" (R26, R99, R100). Log entries
3 and 6. -/
opaque unspecifiedDout : Nat → Block

/-- What `L` holds between commands, after a Reset inside a run and at power-up: "unspecified" (R18, R26, R100).
Log entries 3 and 6. -/
opaque unspecifiedL : Nat → Half

/-- What `R` holds between commands, after a Reset inside a run and at power-up: "unspecified" (R18, R26, R100).
Log entries 3 and 6. -/
opaque unspecifiedR : Nat → Half

/-- What the round sequencer holds between commands, after a Reset inside a run and at power-up: "unspecified" (R19,
R26, R100). Log entries 3 and 6. -/
opaque unspecifiedSeq : Nat → Sequencer

/-- What the `dout` port shows while `DV = 0`: "some 12-bit value about which a model may assume nothing"
(R14, R82). Log entry 9. -/
opaque unspecifiedDoutPort : Nat → Block

/-- `KV` at power-up, before the first Reset: "the engine may appear keyed" (R100). Log entry 6. -/
opaque powerUpKv : Bool

/-- `DV` at power-up, before the first Reset: the engine "may show a result" (R100). Log entry 6. -/
opaque powerUpDv : Bool

/-- `ERR` at power-up, before the first Reset: the engine "may appear halted" (R100). Log entry 6. -/
opaque powerUpErr : FaultCode

/-- What the `cmd_ready` port shows before the first Reset, with this many samples of the input ports to come: the spec
gives it only after Reset (R26), and before that "nothing may be assumed" (R100). Log entry 16. -/
opaque powerUpCmdReady : Nat → Bool

end Sys2Proof.Config
end

