-- ==== Sys2Proof/Machine/State.lean ====
section
/-! DEFINITION. The machine's state (10_state.md R11), its reset value (R26, R99), the reasons a step can stop, the
fault causes the engine records (60_exceptions.md R84), and the host actions and port samples by which the
outside world reaches it (R24, R106). -/

namespace Sys2Proof.Machine

/-- The reasons the model stops. None is a fault of the engine: those are recorded in `ERR` and the machine
goes on (60_exceptions.md R90). -/
inductive Fault where
  /-- Raised by the host interface (`perform`, Machine/Execute.lean) when a command is issued before the first
  Reset: "no command may be issued; the first host action must be Reset" (R100; U9: `stuck`). Safe: the spec
  gives such a run no meaning. No instruction's meaning raises it. -/
  | issuedBeforeReset
  deriving DecidableEq, Repr

/-- The reasons the model gives an instruction no meaning. -/
inductive Refusal where
  /-- An instruction whose meaning is not written yet; raised by no arm of `exec` in this model. Safe: nothing
  is claimed of such an instruction. -/
  | notModelled (mnemonic : String)
  deriving DecidableEq, Repr

/-- The fault causes of R84. -/
inductive FaultCause where
  /-- The word does not decode (R85). -/
  | illegalCommand
  /-- A key at or above 512, or a round index of 0 (R86). -/
  | rangeViolation
  /-- A cipher command while no key is loaded (R87). -/
  | noKey
  /-- A second key load (R88). -/
  | keyLocked
  /-- Set aside for a table-parametric model; nothing in this hardware raises it (R89). -/
  | tableFault
  deriving DecidableEq, Repr

/-- What the host can ask of the engine that may change it (R106: `HostAction = Reset | Issue(cw)`). Observe is
a function of the state (`State.observe`). -/
inductive HostAction where
  | reset
  | issue (cw : CommandWord)
  deriving DecidableEq, Repr

/-- The input ports at one rising edge of `clk` (R24). -/
structure PortSample where
  /-- `rst`, active high. -/
  rst : Bool
  /-- `cmd_valid`: the host is presenting a word on `cmd`. -/
  cmdValid : Bool
  /-- `cmd`: the command word. -/
  cmd : CommandWord
  deriving DecidableEq, Repr

/-- The state of one engine: the components of R11, then the model's own fields (`draws`, `resetDone`,
`inputs`). The S-box ROMs, the expansion wiring and the round keys are not state (R22, R23). -/
structure State where
  /-- `KEY` (R12): meaningful while `kv`. -/
  key : MasterKey
  /-- `KV` (R13). -/
  kv : Bool
  /-- `DOUT` (R14): meaningful while `dv`. -/
  dout : Block
  /-- `DV` (R15). -/
  dv : Bool
  /-- `ERR` (R16). -/
  err : FaultCode
  /-- `L`, hidden (R18). -/
  l : Half
  /-- `R`, hidden (R18). -/
  r : Half
  /-- The round sequencer, hidden (R19). -/
  seq : Sequencer
  /-- The model's own: how many times free values have been drawn (log entry 4). -/
  draws : Nat
  /-- The model's own: a Reset has happened since power-up (R100; log entry 6). -/
  resetDone : Bool
  /-- The model's own: the input ports at the coming edges at which no command is being executed, the next one
  first (R24; log entries 5, 7 and 16). -/
  inputs : List PortSample
  deriving DecidableEq, Repr

/-- The machine right after Reset (R26, R99), with nothing on its ports: the flags are 0 as the spec says; the
registers the spec leaves unspecified hold the values that log entries 1 and 2 name (DESIGN CHOICE). -/
def State.reset : State :=
  { key := 0, kv := false, dout := 0, dv := false, err := 0, l := 0, r := 0, seq := ⟨0, .encryption⟩,
    draws := 0, resetDone := true, inputs := [] }

/-- The machine at power-up, before the first Reset (R100): every register is unspecified, the flags too, each a
free value (log entry 6), one for all engines at power-up (DESIGN CHOICE of form, log entry 17). `ps` is what the host will present. -/
def State.powerUp (ps : List PortSample) : State :=
  { key := Config.unspecifiedKey 0, kv := Config.powerUpKv, dout := Config.unspecifiedDout 0,
    dv := Config.powerUpDv, err := Config.powerUpErr, l := Config.unspecifiedL 0, r := Config.unspecifiedR 0,
    seq := Config.unspecifiedSeq 0, draws := 1, resetDone := false, inputs := ps }

end Sys2Proof.Machine
end

