-- ==== Sys2Proof/Machine/Flags.lean ====
section
/-! DEFINITION. The flags (`KV`, `DV`, `ERR`), the fault codes, and what the output ports show of them. The engine has
no arithmetic flags (00_scope.md R7). -/

namespace Sys2Proof.Machine

/-- The code of a fault cause (R84). -/
def FaultCause.code : FaultCause → FaultCode
  | .illegalCommand => 1
  | .rangeViolation => 2
  | .noKey => 3
  | .keyLocked => 4
  | .tableFault => 5

/-- While `ERR ≠ 0` the engine is halted (R16, R91). -/
def State.halted (s : State) : Bool := s.err != 0

/-- `STATUS = (ERR << 2) + (DV << 1) + KV` (R17): bits 7:5 are always 0. It is the `status` port (R24). -/
def State.status (s : State) : StatusWord :=
  BitVec.ofNat 8 ((s.err.toNat <<< 2) + (s.dv.toNat <<< 1) + s.kv.toNat)

/-- The `dout` port (R24): `DOUT` while `DV = 1`; while `DV = 0` a value about which nothing may be assumed, the same
at each read of one state (R14, R82; log entry 9), and the same in two states with equal `draws` (log entry 17). -/
def State.doutPort (s : State) : Block := if s.dv then s.dout else Config.unspecifiedDoutPort s.draws

/-- The `cmd_ready` port (R24). After the first Reset it is 1 in every state between two commands, since a command is
one atomic step and the engine "always returns to `cmd_ready = 1`" (R26, R37, R102; DEDUCED, log entry 7); the model has
no state during a command. Between power-up and the first Reset the spec does not give it (R26, R100): a free value
(DESIGN CHOICE of form, log entry 16). -/
def State.cmdReady (s : State) : Bool := if s.resetDone then true else Config.powerUpCmdReady s.inputs.length

/-- What the host obtains by Observe (R82, R106). -/
structure Observation where
  status : StatusWord
  dout : Option Block
  deriving DecidableEq, Repr

/-- Observe (R82, R106): `STATUS` exactly, and `DOUT` exactly if `DV = 1`. It is a read: it changes nothing. -/
def State.observe (s : State) : Observation := ⟨s.status, if s.dv then some s.dout else none⟩

end Sys2Proof.Machine
end

