-- ==== Sys2Proof/Machine/Operands.lean ====
section
/-! DEFINITION. How each operand is taken from its field, and when it is refused (30_encoding.md R45). Nothing is
truncated, masked or defaulted (60_exceptions.md R98). -/

namespace Sys2Proof.Machine

/-- The key of `LDKEY`: `DATA[8:0]` when `DATA[11:9] = 0`, else no key (R45, R86). -/
def keyOperand (data : BitVec 12) : Option MasterKey :=
  if data.extractLsb' 9 3 = 0 then some (data.extractLsb' 0 9) else none

/-- The block of a cipher command: `DATA`, all 12 bits, every value legal (R45). -/
def blockOperand (data : BitVec 12) : Block := data

/-- The round index with this number; 0 is no round index (R59, U8). -/
def roundOfNat : Nat → Option RoundIndex
  | 0 => none
  | t + 1 => some ⟨t⟩

/-- A round operand of `PROC`: the field as an unsigned integer, 0 refused (R45, R86). -/
def roundOperand (x : Nibble) : Option RoundIndex := roundOfNat x.toNat

end Sys2Proof.Machine
end

