-- ==== Sys2Proof/Machine/Ops.lean ====
section
/-! DEFINITION. The named operations over the registers, from which every meaning is made: fault entry and reset
(60_exceptions.md R90, 70_reset_and_hazards.md R99), the two checks that commands share, the key load, and the
round datapath (44_feistel_engine.md, with the hidden registers of 10_state.md R18 and R19). -/

namespace Sys2Proof.Machine

/-- What a command answers. -/
abbrev Result := Host.Outcome State Fault Refusal

/-! ### Fault entry and the way out of it -/

/-- The one effect of a fault on the registers: `ERR <- code(X)` (R90). -/
def State.recordFault (c : FaultCause) (s : State) : State := { s with err := c.code }

/-- `raise X` (R90): the command ends with the fault's code recorded. It is the exception entry of this machine:
no handler, no vector, no saved state, no mode (R90, R95). -/
def raise (c : FaultCause) (s : State) : Result := .next (s.recordFault c)

/-- Reset (R99): the three flags are cleared, and every other register of the engine is unspecified, a free value
(log entry 3). It is the only way out of the halted state (R91). The free values depend on `draws` alone, so two engines
with equal `draws` get equal ones, which the spec does not say (R42; DESIGN CHOICE of form, log entry 17). -/
def State.applyReset (s : State) : State :=
  { s with
    kv := false, dv := false, err := 0
    key := Config.unspecifiedKey s.draws, dout := Config.unspecifiedDout s.draws
    l := Config.unspecifiedL s.draws, r := Config.unspecifiedR s.draws, seq := Config.unspecifiedSeq s.draws
    draws := s.draws + 1, resetDone := true }

/-! ### The checks that commands share -/

/-- A halted engine discards the command, "changing nothing, not even `ERR`"; the check stands before every other
(R77, R91, R92 point 1). -/
def unlessHalted (s : State) (command : State → Result) : Result :=
  if s.halted then .next s else command s

/-- A cipher command raises NoKey when `KV = 0` (R87). -/
def requireKey (s : State) (command : State → Result) : Result :=
  if s.kv then command s else raise .noKey s

/-! ### The key -/

/-- The two writes of a successful `LDKEY` (R78). -/
def State.loadKey (k : MasterKey) (s : State) : State := { s with key := k, kv := true }

/-! ### The round datapath -/

/-- The halves held in `L` and `R`. -/
def State.halves (s : State) : Halves := ⟨s.l, s.r⟩

/-- A cipher command loads `L` and `R` from its block and sets the sequencer to the start round and the direction
of the pass (R18, R19, R68, R69). -/
def State.startPass (v : Block) (s e : RoundIndex) (st : State) : State :=
  { st with l := (split v).l, r := (split v).r, seq := ⟨s.i, passDirection s e⟩ }

/-- The round index steps by one in the direction of the pass (R19, R69). After the last round it may be 0 or 16,
"never used as a round index". -/
def Sequencer.advance (q : Sequencer) : Sequencer :=
  match q.direction with
  | .encryption => { q with index := q.index + 1 }
  | .decryption => { q with index := q.index - 1 }

/-- One round on the hidden registers, with the round key of `KEY` and the sequencer's index (R18, R70): both halves
change together, from the old pair, and the sequencer advances. A sequencer that holds no round index (0) does
nothing; a pass never reaches that case (R19). -/
def State.runRound (st : State) : State :=
  match roundOfNat st.seq.index with
  | none => st
  | some i =>
    let p := roundStep st.key i st.halves
    { st with l := p.l, r := p.r, seq := Sequencer.advance st.seq }

/-- The counted loop (R69: "length and direction are fixed by `s` and `e` before the first round"). -/
def State.runRounds : Nat → State → State
  | 0, st => st
  | n + 1, st => State.runRounds n st.runRound

/-- The result is assembled once, after the last round (R71), and written whole to `DOUT`; `DV` is set (R79 to R81). -/
def State.writeResult (st : State) : State := { st with dout := assemble st.halves, dv := true }

/-- At the end of a cipher command the hidden registers are unspecified again (R18, R19): free values. They
depend on `draws` alone (log entry 17). -/
def State.releaseHidden (st : State) : State :=
  { st with
    l := Config.unspecifiedL st.draws, r := Config.unspecifiedR st.draws, seq := Config.unspecifiedSeq st.draws
    draws := st.draws + 1 }

/-- One whole cipher pass over the datapath: the effect of `ENC`, `DEC` and `PROC` once their checks have passed
(R79 to R81): `DOUT <- Process(v, KEY, s, e)`, `DV <- 1`. -/
def State.cipherPass (v : Block) (s e : RoundIndex) (st : State) : State :=
  (State.runRounds (roundCount s e) (st.startPass v s e)).writeResult.releaseHidden

end Sys2Proof.Machine
end

