-- ==== Sys2Proof/Machine/Cipher.lean ====
section
/-! DEFINITION. The cipher commands `ENC`, `DEC` and `PROC` (45_commands.md R79 to R81). -/

namespace Sys2Proof.Machine

/-- `ENC v` (R79): rounds fixed at 1 and 2. -/
def execEnc (data : BitVec 12) (s : State) : Result :=
  unlessHalted s fun s => requireKey s fun s => .next (s.cipherPass (blockOperand data) roundOne roundTwo)

/-- `DEC v` (R80): rounds fixed at 2 and 1. -/
def execDec (data : BitVec 12) (s : State) : Result :=
  unlessHalted s fun s => requireKey s fun s => .next (s.cipherPass (blockOperand data) roundTwo roundOne)

/-- `PROC v, s, e` (R81): a round field of 0 is a RangeViolation, checked before the key (R92). -/
def execProc (data : BitVec 12) (sr er : BitVec 4) (s : State) : Result :=
  unlessHalted s fun s =>
    match roundOperand sr, roundOperand er with
    | some first, some last => requireKey s fun s => .next (s.cipherPass (blockOperand data) first last)
    | _, _ => raise .rangeViolation s

end Sys2Proof.Machine
end

