-- ==== Sys2Proof/Machine/KeyLoad.lean ====
section
/-! DEFINITION. The key load, `LDKEY` (45_commands.md R78). -/

namespace Sys2Proof.Machine

/-- `LDKEY k` (R78): RangeViolation before KeyLocked (R92). -/
def execLdkey (data : BitVec 12) (s : State) : Result :=
  unlessHalted s fun s =>
    match keyOperand data with
    | none => raise .rangeViolation s
    | some k => if s.kv then raise .keyLocked s else .next (s.loadKey k)

end Sys2Proof.Machine
end

