-- ==== Sys2Proof/Machine/Dispatch.lean ====
section
/-! DEFINITION. The meaning of each command, one arm per constructor. -/

namespace Sys2Proof.Machine

def exec (i : Instr) (s : State) : Host.Outcome State Fault Refusal :=
  match i with
  | .ldkey data => Sys2Proof.Machine.execLdkey data s
  | .enc data => Sys2Proof.Machine.execEnc data s
  | .dec data => Sys2Proof.Machine.execDec data s
  | .proc data sr er => Sys2Proof.Machine.execProc data sr er s

end Sys2Proof.Machine
end

