-- ==== Sys2Proof/Machine/Execute.lean ====
section
/-! DEFINITION. The execution of one command word (45_commands.md R77), and what the engine does with one host action
and with one sample of its input ports (10_state.md R24, 70_reset_and_hazards.md R106). -/

namespace Sys2Proof.Machine

/-- The host's ports for the coming edges are these; the engine is as it was. -/
def State.withInputs (ps : List PortSample) (s : State) : State := { s with inputs := ps }

/-- `Execute(cw)` (R77): halted, then decoded, then the command's own rule. -/
def execute (cw : CommandWord) (s : State) : Result :=
  if s.halted then .next s
  else
    match decode cw with
    | .error _ => raise .illegalCommand s
    | .ok i => exec i s

/-- One host action (R106). A command issued before the first Reset is outside every run (R100, U9 `stuck`), whatever
`cmd_ready` shows there (log entries 6 and 16). -/
def perform (a : HostAction) (s : State) : Result :=
  match a with
  | .reset => .next s.applyReset
  | .issue cw => if s.resetDone then execute cw s else .fault .issuedBeforeReset

/-- The action that a sample of the ports requests at an edge at which no command is being executed (R24): `rst = 1`
is a Reset whatever stands on the other ports (R99); otherwise `cmd_valid = 1` issues the word on `cmd`. -/
def PortSample.action (p : PortSample) : Option HostAction :=
  if p.rst then some .reset else if p.cmdValid then some (.issue p.cmd) else none

/-- The ports as a host sets them to ask for one action (R24). -/
def HostAction.sample : HostAction → PortSample
  | .reset => ⟨true, false, 0⟩
  | .issue cw => ⟨false, true, cw⟩

/-- One edge at which no command is being executed; with no action requested nothing changes (R37 point 4, R106). -/
def takeSample (p : PortSample) (s : State) : Result :=
  match p.action with
  | none => .next s
  | some a => perform a s

end Sys2Proof.Machine
end

