-- ==== Sys2Proof/Machine/Step.lean ====
section
/-! DEFINITION. One step of the machine: the next sample of the input ports is taken. -/

namespace Sys2Proof.Machine

/-- One step (R77, R99, R106): the next edge's sample is consumed and acted on. With no edge to come the host does
nothing, and neither does the engine (R37 point 4, R106). -/
def step (s : State) : Host.Outcome State Fault Refusal :=
  match s.inputs with
  | [] => .next s
  | p :: rest => takeSample p (s.withInputs rest)

/-- The host presents the command word `w` at the very next edge (R24). The engine fetches from no memory (R20): a
command reaches it only so, and nothing else of the state changes. -/
def State.withFetchWord (s : State) (nbits w : Nat) : State :=
  s.withInputs (HostAction.sample (.issue (BitVec.ofNat 24 (w % 2 ^ nbits))) :: s.inputs)

end Sys2Proof.Machine
end

