-- ==== Sys2Proof/Machine/Assembler.lean ====
section
/-! DEFINITION. The assembler's lines (30_encoding.md R49) as data, and the host action or check each stands for. The
text of a line (comments, number bases) is left to the tool that reads it (log entry 10). -/

namespace Sys2Proof.Machine

/-- One line of R49. -/
inductive AsmLine where
  | reset
  | ldkey (k : Nat)
  | enc (v : Nat)
  | dec (v : Nat)
  | proc (v s e : Nat)
  | word (w : Nat)
  /-- `EXPECT STATUS=x DOUT=y`; no value of `dout` is `DOUT=-`. -/
  | expect (status : Nat) (dout : Option Nat)
  deriving DecidableEq, Repr

/-- What a line assembles to: an action the host performs, or a check of what it observes. -/
inductive AsmItem where
  | act (a : HostAction)
  | check (status : Nat) (dout : Option Nat)
  deriving DecidableEq, Repr

/-- A word from its formula, where each operand fits its field (R49). -/
def wordIf (fits : Bool) (w : Nat) : Option AsmItem :=
  if fits then some (.act (.issue (BitVec.ofNat 24 w))) else none

/-- The line's item; an operand that does not fit its field is an assembly error, "never truncated" (R49). -/
def assembleLine : AsmLine → Option AsmItem
  | .reset => some (.act .reset)
  | .ldkey k => wordIf (decide (k ≤ 4095)) (0x100000 + k)
  | .enc v => wordIf (decide (v ≤ 4095)) (0x200000 + v)
  | .dec v => wordIf (decide (v ≤ 4095)) (0x300000 + v)
  | .proc v s e =>
    wordIf (decide (v ≤ 4095) && decide (s ≤ 15) && decide (e ≤ 15)) (0x400000 + (s <<< 16) + (e <<< 12) + v)
  | .word w => wordIf (decide (w < 2 ^ 24)) w
  | .expect x y => some (.check x y)

/-- What Observe must give for a check to hold; `DOUT=-` compares no `DOUT` (R49). -/
def checkHolds (status : Nat) (dout : Option Nat) (o : Observation) : Bool :=
  decide (o.status.toNat = status) &&
    match dout with
    | none => true
    | some y => decide (o.dout.map BitVec.toNat = some y)

end Sys2Proof.Machine
end

