-- ==== Sys2Proof/Safety.lean ====
section
/-! DEFINITION. What claims are stated in: runs and their end states (70_reset_and_hazards.md R107), what the host can
tell apart (10_state.md R25), and the machine's invariant. -/

namespace Sys2Proof.Machine

/-- `n` steps, stopping at the first stop. -/
def run : Nat → State → Result
  | 0, s => .next s
  | n + 1, s =>
    match step s with
    | .next t => run n t
    | .fault x => .fault x
    | .refused x => .refused x

/-- The host is about to perform these actions, in order, and nothing else (R106). -/
def State.facing (s : State) (as : List HostAction) : State :=
  s.withInputs (as.map HostAction.sample)

/-- The host actions applied in order (R107). -/
def runActions (as : List HostAction) (s : State) : Result := run as.length (s.facing as)

/-- A run is a list of host actions beginning with Reset (R107). -/
def isRun : List HostAction → Bool
  | .reset :: _ => true
  | _ => false

/-- The visible state (R107): `KEY` where `KV = 1`, `KV`, `DOUT` where `DV = 1`, `DV`, `ERR`. -/
structure VisibleState where
  key : Option MasterKey
  kv : Bool
  dout : Option Block
  dv : Bool
  err : FaultCode
  deriving DecidableEq, Repr

/-- The visible state of a machine state. Two states with equal visible states are those of R25. -/
def State.visible (s : State) : VisibleState :=
  { key := if s.kv then some s.key else none, kv := s.kv
    dout := if s.dv then some s.dout else none, dv := s.dv, err := s.err }

/-- A run ends well iff its end state has `ERR = 0` (R107). -/
def State.succeeded (s : State) : Bool := s.err == 0

/-- The result a cipher command writes to `DOUT` under the key `k` (R79 to R81); none for a key load and for a round
index of 0. -/
def cipherResult (k : MasterKey) : Instr → Option Block
  | .ldkey _ => none
  | .enc v => some (encrypt v k)
  | .dec v => some (decrypt v k)
  | .proc v sr er =>
    match roundOperand sr, roundOperand er with
    | some first, some last => some (process v k first last)
    | _, _ => none

/-- The host issues this command. -/
def issueOf (i : Instr) : HostAction := .issue (encode i)

/-- The action is not a Reset. -/
def HostAction.isIssue : HostAction → Bool
  | .reset => false
  | .issue _ => true

/-- The invariant of every state after the first Reset: `ERR` is at most 4 (93_implementation_defined.md U11), and a
result is present only if a key is loaded (R78: "no cipher command can have succeeded while `KV` was 0"). -/
def State.Inv (s : State) : Prop :=
  s.resetDone = true → s.err.toNat ≤ 4 ∧ (s.dv = true → s.kv = true)

end Sys2Proof.Machine
end

