-- ==== Sys2Proof/Certificates/Slice0/Obligations.lean ====
section
/-! DEFINITION. The statements for the provers: what the numbered rules of the spec say of the function layer, the
encoding, the four commands, the faults, reset, and whole runs. -/

open Sys2Proof Sys2Proof.Machine

/-! ### The function layer -/

/-- R52, R53: every output bit of the expansion is a copy of one input bit, the expansion is linear over XOR and
injective, its image is the values with `y[5] = y[3]` and `y[4] = y[2]`, SD's four values hold, and the map passes
the check that R89 asks of a table. -/
def Obligations.ExpandIsTheFixedWiring : Prop :=
  (∀ x : Half,
      (expand x).toNat =
        128 * (x.getLsbD 5).toNat + 64 * (x.getLsbD 4).toNat + 40 * (x.getLsbD 2).toNat +
          20 * (x.getLsbD 3).toNat + 2 * (x.getLsbD 1).toNat + (x.getLsbD 0).toNat) ∧
    (∀ x y : Half, expand (x ^^^ y) = expand x ^^^ expand y) ∧
    (∀ x y : Half, expand x = expand y → x = y) ∧
    (∀ y : BitVec 8, (∃ x, expand x = y) ↔ y.getLsbD 5 = y.getLsbD 3 ∧ y.getLsbD 4 = y.getLsbD 2) ∧
    (expand 0 = 0 ∧ expand 32 = 128 ∧ expand 8 = 20 ∧ expand 63 = 255) ∧
    expansionMapWellFormed expansionMap = true

/-- R29: the word at each address of each ROM, and that it is the S-box entry at the address's row and column. -/
def Obligations.RomReadIsTheListedWord : Prop :=
  (∀ a : SboxAddress, some (romRead .one a) = ([5, 2, 1, 6, 3, 4, 7, 0, 1, 4, 6, 2, 0, 7, 5, 3] : List SboxWord)[a.toNat]?) ∧
    (∀ a : SboxAddress, some (romRead .two a) = ([4, 0, 6, 5, 7, 1, 3, 2, 5, 3, 0, 7, 6, 2, 1, 4] : List SboxWord)[a.toNat]?) ∧
    ∀ (b : Box) (a : SboxAddress), romRead b a = sLookup b (a.extractLsb' 3 1) (a.extractLsb' 0 3)

/-- R58: each row of each box is a permutation of 0..7, and over its 16 addresses each box takes every value exactly
twice. -/
def Obligations.SboxRowsArePermutations : Prop :=
  (∀ (b : Box) (row : BitVec 1) (w : SboxWord), ∃ col, sLookup b row col = w ∧ ∀ c, sLookup b row c = w → c = col) ∧
    ∀ (b : Box) (w : SboxWord), ((List.range 16).filter fun a => romRead b (BitVec.ofNat 4 a) == w).length = 2

/-- R60, R61: the bits of the rotated key and of the round key, the bit left out, the nine windows as slices of the
key, and the two round keys of the two-round cipher. -/
def Obligations.RoundKeyIsARotatedWindow : Prop :=
  (∀ (k : MasterKey) (i : RoundIndex) (m : Nat), m < 9 →
      (rotatedKey k (i.t % 9)).testBit m = k.getLsbD ((m + 9 - i.t % 9) % 9)) ∧
    (∀ (k : MasterKey) (i : RoundIndex) (j : Nat), j < 8 →
      (roundKey k i).getLsbD j = k.getLsbD ((j + 1 + 9 - i.t % 9) % 9)) ∧
    (∀ (k : MasterKey) (i : RoundIndex), (rotatedKey k (i.t % 9)).testBit 0 = k.getLsbD ((9 - i.t % 9) % 9)) ∧
    (∀ (k : MasterKey) (i : RoundIndex), (roundKey k i).toNat =
      if i.t % 9 = 0 then k.toNat / 2
      else k.toNat % 2 ^ (9 - i.t % 9) * 2 ^ (i.t % 9 - 1) + k.toNat / 2 ^ (9 - i.t % 9) / 2) ∧
    ∀ k : MasterKey, (roundKey k ⟨0⟩).toNat = k.toNat / 2 ∧ (roundKey k ⟨1⟩).toNat = k.toNat % 256

/-- R62: the key schedule has period 9, depends on the index only through `(i - 1) mod 9`, gives at most nine round
keys, and gives equal ones for the keys 0 and 511. -/
def Obligations.KeyScheduleHasPeriodNine : Prop :=
  (∀ (k : MasterKey) (i j : RoundIndex), j.i = i.i + 9 → roundKey k j = roundKey k i) ∧
    (∀ (k : MasterKey) (i j : RoundIndex), (i.i - 1) % 9 = (j.i - 1) % 9 → roundKey k i = roundKey k j) ∧
    (∀ (k : MasterKey), ∃ ks : List RoundKeyWord, ks.length = 9 ∧ ∀ i, roundKey k i ∈ ks) ∧
    ∀ i : RoundIndex, roundKey 0 i = 0x00 ∧ roundKey 511 i = 0xFF

/-- R65: the result's high three bits are S-box 1's word at the high half of `X = K xor Expand(r)` and its low three
bits S-box 2's at the low half; R66 (a): it depends on `K` and `r` only through `X`, and is 44 where `X = 0`. -/
def Obligations.RoundFunctionReadsBothRoms : Prop :=
  (∀ (r : Half) (k : RoundKeyWord),
      (roundFunction r k).toNat =
        8 * (romRead .one ((k ^^^ expand r).extractLsb' 4 4)).toNat +
          (romRead .two ((k ^^^ expand r).extractLsb' 0 4)).toNat) ∧
    (∀ (r r' : Half) (k k' : RoundKeyWord), k ^^^ expand r = k' ^^^ expand r' →
      roundFunction r k = roundFunction r' k') ∧
    ∀ r : Half, roundFunction r (expand r) = 44

/-- R69: the round sequence rises or falls by one from the start round to the end round, has `|s - e| + 1` members
and so at least one, and the sequence with the rounds exchanged is its reverse. -/
def Obligations.RoundsRunFromStartToEnd : Prop :=
  ∀ s e : RoundIndex,
    (s.i ≤ e.i → passDirection s e = .encryption ∧ (rounds s e).map RoundIndex.i = List.range' s.i (e.i - s.i + 1)) ∧
      (e.i < s.i → passDirection s e = .decryption ∧
        (rounds s e).map RoundIndex.i = (List.range' e.i (s.i - e.i + 1)).reverse) ∧
      (rounds s e).length = (s.i - e.i) + (e.i - s.i) + 1 ∧
      (rounds s e).head? = some s ∧ (rounds s e).getLast? = some e ∧ (∀ x ∈ rounds s e, 1 ≤ x.i) ∧
      rounds e s = (rounds s e).reverse

/-- R68, R70, R71: the split puts `L` high, a round replaces both halves from the old pair, and the assembly puts the
last `R` high. -/
def Obligations.SplitRoundAndAssembly : Prop :=
  (∀ v : Block, (split v).l.toNat = v.toNat / 64 ∧ (split v).r.toNat = v.toNat % 64) ∧
    (∀ (k : MasterKey) (i : RoundIndex) (p : Halves),
      roundStep k i p = ⟨p.r, roundFunction p.r (roundKey k i) ^^^ p.l⟩) ∧
    (∀ p : Halves, (assemble p).toNat = p.r.toNat * 64 + p.l.toNat) ∧
    ∀ p : Halves, split (assemble p) = ⟨p.r, p.l⟩

/-- R73, the inverse law, for any round function whatever and so for `Process`; with it, that a single round is an
involution and that a pass is a bijection of the blocks. -/
def Obligations.ExchangedRoundsInvertAPass : Prop :=
  (∀ (g : RoundIndex → Half → Half) (v : Block) (s e : RoundIndex), networkPass g (networkPass g v s e) e s = v) ∧
    (∀ (v : Block) (k : MasterKey) (s e : RoundIndex), process (process v k s e) k e s = v) ∧
    (∀ (v : Block) (k : MasterKey) (s : RoundIndex), process (process v k s s) k s s = v) ∧
    (∀ (v : Block) (k : MasterKey), process (process v k roundOne roundTwo) k roundTwo roundOne = v) ∧
    ∀ (k : MasterKey) (s e : RoundIndex), Function.Bijective fun v => process v k s e

/-- R74: `Encrypt` and `Decrypt` are `Process` over the rounds 1, 2 and 2, 1; their unrolled forms; each undoes the
other. -/
def Obligations.EncryptAndDecryptUnrolled : Prop :=
  (∀ (p : Block) (k : MasterKey), encrypt p k = process p k ⟨0⟩ ⟨1⟩ ∧ decrypt p k = process p k ⟨1⟩ ⟨0⟩) ∧
    (∀ (p : Block) (k : MasterKey), ∀ k1 k2 : RoundKeyWord, k1.toNat = k.toNat / 2 → k2.toNat = k.toNat % 256 →
      ∀ l0 r0 : Half, l0.toNat = p.toNat / 64 → r0.toNat = p.toNat % 64 →
        (let r1 := l0 ^^^ roundFunction r0 k1
         let r2 := r0 ^^^ roundFunction r1 k2
         (encrypt p k).toNat = r2.toNat * 64 + r1.toNat) ∧
          (let r1 := l0 ^^^ roundFunction r0 k2
           let r2 := r0 ^^^ roundFunction r1 k1
           (decrypt p k).toNat = r2.toNat * 64 + r1.toNat)) ∧
    ∀ (p : Block) (k : MasterKey), decrypt (encrypt p k) k = p ∧ encrypt (decrypt p k) k = p

/-- R75 (4): a pass nine rounds later is the same pass. -/
def Obligations.PassHasPeriodNine : Prop :=
  ∀ (v : Block) (k : MasterKey) (s e s' e' : RoundIndex), s'.i = s.i + 9 → e'.i = e.i + 9 →
    process v k s' e' = process v k s e

/-! ### The encoding -/

/-- R43, R48: a word decodes to a command exactly when it is that command's word; so decoding an encoded command gives
it back with every operand, and no word is read as another's. -/
def Obligations.DecodeIsTheInverseOfEncode : Prop :=
  ∀ (cw : CommandWord) (i : Instr), decode cw = .ok i ↔ cw = encode i

/-- R44: a word is the named command iff `cw & mask = match`; no word matches two rows; a word that matches none is
illegal. -/
def Obligations.DecodeFollowsTheOpcodeTable : Prop :=
  (∀ cw : CommandWord, cw &&& 0xFFF000 = 0x100000 ↔ ∃ k, decode cw = .ok (.ldkey k)) ∧
    (∀ cw : CommandWord, cw &&& 0xFFF000 = 0x200000 ↔ ∃ v, decode cw = .ok (.enc v)) ∧
    (∀ cw : CommandWord, cw &&& 0xFFF000 = 0x300000 ↔ ∃ v, decode cw = .ok (.dec v)) ∧
    (∀ cw : CommandWord, cw &&& 0xF00000 = 0x400000 ↔ ∃ v s e, decode cw = .ok (.proc v s e)) ∧
    (∀ cw : CommandWord, ∀ x ∈ opcodeTable, ∀ y ∈ opcodeTable, x.covers cw = true → y.covers cw = true → x = y) ∧
    ∀ cw : CommandWord, (∃ why, decode cw = .error why) ↔ ∀ x ∈ opcodeTable, x.covers cw = false

/-- R46: which words are legal commands, which decode and then fail the range check, and which are illegal, by the
word's number. -/
def Obligations.WordClassesByNumber : Prop :=
  ∀ cw : CommandWord,
    ((∃ k, decode cw = .ok (.ldkey k) ∧ (Instr.ldkey k).wellFormed = true) ↔
        0x100000 ≤ cw.toNat ∧ cw.toNat ≤ 0x1001FF) ∧
      ((∃ k, decode cw = .ok (.ldkey k) ∧ (Instr.ldkey k).wellFormed = false) ↔
        0x100200 ≤ cw.toNat ∧ cw.toNat ≤ 0x100FFF) ∧
      ((∃ v, decode cw = .ok (.enc v)) ↔ 0x200000 ≤ cw.toNat ∧ cw.toNat ≤ 0x200FFF) ∧
      ((∃ v, decode cw = .ok (.dec v)) ↔ 0x300000 ≤ cw.toNat ∧ cw.toNat ≤ 0x300FFF) ∧
      ((∃ v s e, decode cw = .ok (.proc v s e) ∧ (Instr.proc v s e).wellFormed = true) ↔
        cw.toNat / 2 ^ 20 = 4 ∧ cw.toNat / 2 ^ 16 % 16 ≠ 0 ∧ cw.toNat / 2 ^ 12 % 16 ≠ 0) ∧
      ((∃ v s e, decode cw = .ok (.proc v s e) ∧ (Instr.proc v s e).wellFormed = false) ↔
        cw.toNat / 2 ^ 20 = 4 ∧ (cw.toNat / 2 ^ 16 % 16 = 0 ∨ cw.toNat / 2 ^ 12 % 16 = 0)) ∧
      (decode cw = .error .reservedFieldNotZero ↔
        (cw.toNat / 2 ^ 20 = 1 ∨ cw.toNat / 2 ^ 20 = 2 ∨ cw.toNat / 2 ^ 20 = 3) ∧ cw.toNat / 2 ^ 12 % 256 ≠ 0) ∧
      (decode cw = .error .undefinedOpcode ↔ cw.toNat / 2 ^ 20 = 0 ∨ 5 ≤ cw.toNat / 2 ^ 20)

/-- A few words written out from R44 and decoded: one of each command, and the all-zeros and all-ones words. -/
def Obligations.SampleWordsDecode : Prop :=
  decode 0b000100000000000111000111 = .ok (.ldkey 0x1C7) ∧
    decode 0b001000000000100010110101 = .ok (.enc 0x8B5) ∧
    decode 0b001100000000001101001010 = .ok (.dec 0x34A) ∧
    decode 0b010010101011100010110101 = .ok (.proc 0x8B5 10 11) ∧
    decode 0x000000 = .error .undefinedOpcode ∧ decode 0xFFFFFF = .error .undefinedOpcode

/-- R49: a line whose operands fit assembles to a word that decodes to its command; one whose operands do not fit is
an assembly error, never truncated. -/
def Obligations.AssembledLinesDecodeToTheirCommands : Prop :=
  (∀ k : Nat, if k ≤ 4095 then
      ∃ cw, assembleLine (.ldkey k) = some (.act (.issue cw)) ∧ decode cw = .ok (.ldkey (BitVec.ofNat 12 k))
      else assembleLine (.ldkey k) = none) ∧
    (∀ v : Nat, if v ≤ 4095 then
      ∃ cw, assembleLine (.enc v) = some (.act (.issue cw)) ∧ decode cw = .ok (.enc (BitVec.ofNat 12 v))
      else assembleLine (.enc v) = none) ∧
    (∀ v : Nat, if v ≤ 4095 then
      ∃ cw, assembleLine (.dec v) = some (.act (.issue cw)) ∧ decode cw = .ok (.dec (BitVec.ofNat 12 v))
      else assembleLine (.dec v) = none) ∧
    (∀ v s e : Nat, if v ≤ 4095 ∧ s ≤ 15 ∧ e ≤ 15 then
      ∃ cw, assembleLine (.proc v s e) = some (.act (.issue cw)) ∧
        decode cw = .ok (.proc (BitVec.ofNat 12 v) (BitVec.ofNat 4 s) (BitVec.ofNat 4 e))
      else assembleLine (.proc v s e) = none) ∧
    ∀ w : Nat, if w < 2 ^ 24 then
      ∃ cw, assembleLine (.word w) = some (.act (.issue cw)) ∧ cw.toNat = w
      else assembleLine (.word w) = none

/-! ### The commands -/

/-- R78: on an engine that is not halted, `LDKEY` raises RangeViolation at or above 512, else KeyLocked if a key is
loaded, else loads the key; each with no other effect. Where no key is loaded no result is present either (in every
state that meets the invariant of `Obligations.StepKeepsInvariant`). With them, the rule's worked example. -/
def Obligations.LdkeyLoadsTheKeyOnce : Prop :=
  (∀ (data : BitVec 12) (s : State), s.err = 0 →
    if 512 ≤ data.toNat then exec (.ldkey data) s = .next { s with err := 2 }
    else if s.kv = true then exec (.ldkey data) s = .next { s with err := 4 }
    else ∃ k : MasterKey, k.toNat = data.toNat ∧ exec (.ldkey data) s = .next { s with key := k, kv := true }) ∧
    (∀ s : State, s.Inv → s.resetDone = true → s.kv = false → s.dv = false) ∧
    encode (.ldkey 0x1C7) = 0x1001C7 ∧
    ∃ t, runActions [.reset, .issue 0x1001C7] State.reset = .next t ∧ t.key = 0x1C7 ∧ t.kv = true ∧ t.status = 0x01

/-- R79: on a keyed engine that is not halted, `ENC v` completes: `DOUT` is `Process(v, KEY, 1, 2)`, `DV` is 1, the
hidden registers are whatever they are, and no other register changes. -/
def Obligations.EncWritesTheEncryptedBlock : Prop :=
  ∀ (v : BitVec 12) (s : State), s.err = 0 → s.kv = true →
    ∃ (l r : Half) (q : Sequencer) (n : Nat), exec (.enc v) s =
      .next { s with dout := process v s.key ⟨0⟩ ⟨1⟩, dv := true, l := l, r := r, seq := q, draws := n }

/-- R80: on a keyed engine that is not halted, `DEC v` completes: `DOUT` is `Process(v, KEY, 2, 1)`, `DV` is 1, the
hidden registers are whatever they are, and no other register changes. -/
def Obligations.DecWritesTheDecryptedBlock : Prop :=
  ∀ (v : BitVec 12) (s : State), s.err = 0 → s.kv = true →
    ∃ (l r : Half) (q : Sequencer) (n : Nat), exec (.dec v) s =
      .next { s with dout := process v s.key ⟨1⟩ ⟨0⟩, dv := true, l := l, r := r, seq := q, draws := n }

/-- R81: on a keyed engine that is not halted, `PROC v, s, e` with both round fields in 1..15 completes: `DOUT` is
`Process(v, KEY, s, e)`, `DV` is 1, the hidden registers are whatever they are, and no other register changes. -/
def Obligations.ProcWritesThePassResult : Prop :=
  ∀ (v : BitVec 12) (sr er : BitVec 4) (a b : RoundIndex) (s : State), s.err = 0 → s.kv = true →
    sr.toNat = a.i → er.toNat = b.i →
    ∃ (l r : Half) (q : Sequencer) (n : Nat), exec (.proc v sr er) s =
      .next { s with dout := process v s.key a b, dv := true, l := l, r := r, seq := q, draws := n }

/-- R87, R79 to R81: without a key, `ENC`, `DEC` and `PROC` with legal rounds raise NoKey and change nothing else. -/
def Obligations.CipherWithoutAKeyRaisesNoKey : Prop :=
  ∀ (v : BitVec 12) (sr er : BitVec 4) (s : State), s.err = 0 → s.kv = false → sr ≠ 0 → er ≠ 0 →
    exec (.enc v) s = .next { s with err := 3 } ∧ exec (.dec v) s = .next { s with err := 3 } ∧
      exec (.proc v sr er) s = .next { s with err := 3 }

/-- R86, R81: a round field of 0 is a RangeViolation, keyed or not, and changes nothing else. -/
def Obligations.ProcRefusesRoundZero : Prop :=
  ∀ (v : BitVec 12) (sr er : BitVec 4) (s : State), s.err = 0 → sr = 0 ∨ er = 0 →
    exec (.proc v sr er) s = .next { s with err := 2 }

/-- R79 to R81: `ENC v` has exactly the effect of `PROC v, 1, 2`, `DEC v` that of `PROC v, 2, 1`, and `PROC v, 10, 11`
equals `ENC v`, in every state. That the hidden registers, which are unspecified after a command, agree as well is THE
MODEL'S CHOICE (log entry 17), not the rules'. -/
def Obligations.EncAndDecAreInstancesOfProc : Prop :=
  ∀ (v : BitVec 12) (s : State),
    exec (.enc v) s = exec (.proc v 1 2) s ∧ exec (.dec v) s = exec (.proc v 2 1) s ∧
      exec (.proc v 10 11) s = exec (.enc v) s

/-- R45, R86: a command's operands are legal exactly when no engine that is not halted gives it a RangeViolation. -/
def Obligations.RangeViolationIffAnOperandIsIllegal : Prop :=
  ∀ (i : Instr) (s : State), s.err = 0 → (exec i s = .next { s with err := 2 } ↔ i.wellFormed = false)

/-- R80, R81 on the machine: after a pass, `PROC` of its result with the rounds exchanged gives the block back, and
`DEC` of the `DOUT` of `ENC p` gives `p`, `ENC` of the `DOUT` of `DEC c` gives `c`. -/
def Obligations.CommandsUndoEachOther : Prop :=
  ∀ (v : BitVec 12) (s : State), s.err = 0 → s.kv = true →
    (∀ sr er : BitVec 4, sr ≠ 0 → er ≠ 0 →
      ∃ t u, exec (.proc v sr er) s = .next t ∧ exec (.proc t.dout er sr) t = .next u ∧ u.dout = v ∧ u.dv = true) ∧
      (∃ t u, exec (.enc v) s = .next t ∧ exec (.dec t.dout) t = .next u ∧ u.dout = v ∧ u.dv = true) ∧
      ∃ t u, exec (.dec v) s = .next t ∧ exec (.enc t.dout) t = .next u ∧ u.dout = v ∧ u.dv = true

/-- R18, R19, R70: inside a pass the registers `L` and `R` hold, after `n` rounds, the halves that the first `n` round
steps of `Rounds(s, e)` give; the sequencer holds the index of the round to come and the pass's direction, and after
the last round `e + 1` in an encryption pass and `e - 1` in a decryption pass; no visible register moves. -/
def Obligations.HiddenRegistersFollowTheRounds : Prop :=
  ∀ (v : Block) (s e : RoundIndex) (st : State) (n : Nat), n ≤ roundCount s e →
    ∃ p q, State.runRounds n (st.startPass v s e) = { st with l := p.l, r := p.r, seq := q } ∧
      p = ((rounds s e).take n).foldl (fun p i => roundStep st.key i p) (split v) ∧
      q.direction = passDirection s e ∧
      (∀ i, (rounds s e)[n]? = some i → q.index = i.i) ∧
      (n = roundCount s e → q.index = if s.i ≤ e.i then e.i + 1 else e.i - 1)

/-! ### Faults and the halted state -/

/-- R92: the outcome of one issued word, in the order of priority: a halted engine discards it; else an illegal word
is IllegalCommand; else an operand out of range is RangeViolation; else KeyLocked for `LDKEY` and NoKey for a cipher
command, as the key state has it; else no fault. A fault writes its code to `ERR` and nothing else (R90). Reset
overrides everything. -/
def Obligations.FaultPriority : Prop :=
  (∀ (cw : CommandWord) (s : State),
    if s.err ≠ 0 then execute cw s = .next s
    else match decode cw with
      | .error _ => execute cw s = .next { s with err := 1 }
      | .ok i =>
        if i.wellFormed = false then execute cw s = .next { s with err := 2 }
        else if (∃ k, i = .ldkey k) ∧ s.kv = true then execute cw s = .next { s with err := 4 }
        else if (¬∃ k, i = .ldkey k) ∧ s.kv = false then execute cw s = .next { s with err := 3 }
        else ∃ t, execute cw s = .next t ∧ t.err = 0) ∧
    ∀ (p : PortSample) (s : State), p.rst = true → takeSample p s = .next s.applyReset

/-- R90, R94: a command that changes `ERR` changes nothing else, was issued to an engine that was not halted, and
records one of the codes 2, 3, 4; it never stops the machine. -/
def Obligations.FaultsArePrecise : Prop :=
  ∀ (i : Instr) (s : State), ∃ t, exec i s = .next t ∧
    (t.err ≠ s.err → s.err = 0 ∧ (t.err = 2 ∨ t.err = 3 ∨ t.err = 4) ∧ t = { s with err := t.err })

/-- R91: a halted engine discards every command, whatever it is, and changes nothing, not even `ERR`. -/
def Obligations.HaltedEngineDiscardsCommands : Prop :=
  ∀ (s : State), s.err ≠ 0 → (∀ i : Instr, exec i s = .next s) ∧ ∀ cw : CommandWord, execute cw s = .next s

/-- R91: after the first fault no sequence of issued words changes any register, and a Reset then clears `ERR`, `KV`
and `DV`. -/
def Obligations.OnlyResetLeavesTheHaltedState : Prop :=
  ∀ (as : List HostAction) (s : State), s.resetDone = true → s.err ≠ 0 → (∀ a ∈ as, a.isIssue = true) →
    runActions as s = .next (s.withInputs []) ∧
      ∃ t, runActions (as ++ [.reset]) s = .next t ∧ t.err = 0 ∧ t.kv = false ∧ t.dv = false

/-! ### Steps, the ports and reset -/

/-- R24, R77: when a word is presented at the next edge without reset and decodes to a command, the step is that
command's `exec` in the state whose port sample has been consumed; nothing else is added. That the ports' samples
stand in a list, and that commands wait for the first Reset, is the model's form (log entries 5 and 6). -/
def Obligations.StepRunsTheDecodedCommand : Prop :=
  ∀ (s : State) (cw : CommandWord) (i : Instr) (rest : List PortSample), s.resetDone = true →
    s.inputs = ⟨false, true, cw⟩ :: rest → decode cw = .ok i → step s = exec i (s.withInputs rest)

/-- R85: an illegal word presented at the next edge makes an engine that is not halted record IllegalCommand, and
nothing else. -/
def Obligations.StepRaisesIllegalCommand : Prop :=
  ∀ (s : State) (cw : CommandWord) (why : IllegalWord) (rest : List PortSample), s.resetDone = true → s.err = 0 →
    s.inputs = ⟨false, true, cw⟩ :: rest → decode cw = .error why →
    step s = .next { s.withInputs rest with err := 1 }

/-- R99: with `rst = 1` the step is a Reset, whatever word is presented at the same edge: the flags are cleared, the
engine is ready, and the registers the rule leaves unspecified are not said here. -/
def Obligations.ResetOverridesAPresentedWord : Prop :=
  ∀ (s : State) (valid : Bool) (cw : CommandWord) (rest : List PortSample), s.inputs = ⟨true, valid, cw⟩ :: rest →
    ∃ t, step s = .next t ∧ t.kv = false ∧ t.dv = false ∧ t.err = 0 ∧ t.status = 0x00 ∧ t.cmdReady = true ∧
      t.resetDone = true ∧ t.inputs = rest

/-- R99: nothing of the state before a Reset can be told after it: from any two states, whatever command one of
them was given last, the visible states after a Reset are the same as that of the reset state. -/
def Obligations.ResetForgetsTheInstance : Prop :=
  ∀ (s : State) (i : Instr), ∃ t u v, runActions [.reset] s = .next t ∧ exec i s = .next u ∧
    runActions [.reset] u = .next v ∧ t.visible = State.reset.visible ∧ v.visible = State.reset.visible ∧
    ∃ w, runActions [.reset, .reset] s = .next w ∧ w.visible = State.reset.visible

/-- R37 point 4, R24: an edge at which neither `rst` nor `cmd_valid` is set changes nothing, nor does the absence of
an edge. That the edges to come stand in a list is the model's form (log entry 5). -/
def Obligations.NothingChangesWithoutAHostAction : Prop :=
  (∀ (s : State) (cw : CommandWord) (rest : List PortSample), s.inputs = ⟨false, false, cw⟩ :: rest →
      step s = .next (s.withInputs rest)) ∧
    ∀ s : State, s.inputs = [] → step s = .next s

/-- THE MODEL'S CHOICE (log entry 6; 93_implementation_defined.md U9 treats such a run as `stuck`): a command issued
before the first Reset ends in the fault `issuedBeforeReset`, since R100 lets none be issued there; a Reset at power-up
gives a state that shows what the reset state shows. -/
def Obligations.NoCommandBeforeTheFirstReset : Prop :=
  (∀ (s : State) (cw : CommandWord) (rest : List PortSample), s.resetDone = false →
      s.inputs = ⟨false, true, cw⟩ :: rest → step s = .fault .issuedBeforeReset) ∧
    ∃ t, step (State.powerUp [⟨true, false, 0⟩]) = .next t ∧ t.visible = State.reset.visible ∧ t.resetDone = true

/-- R26, R17: the reset state has the three flags 0, `STATUS = 0x00` and `cmd_ready = 1`. -/
def Obligations.ResetStateHasClearedFlags : Prop :=
  State.reset.kv = false ∧ State.reset.dv = false ∧ State.reset.err = 0 ∧ State.reset.status = 0x00 ∧
    State.reset.cmdReady = true ∧ State.reset.observe = ⟨0x00, none⟩

/-- R17, R82: the status word is `(ERR << 2) + (DV << 1) + KV` with bits 7:5 zero; Observe gives it exactly, `DOUT`
exactly if `DV = 1`, and the `dout` port then shows `DOUT`. -/
def Obligations.ObserveShowsStatusAndResult : Prop :=
  ∀ s : State,
    s.status.toNat = s.err.toNat * 4 + s.dv.toNat * 2 + s.kv.toNat ∧
      s.status.getLsbD 7 = false ∧ s.status.getLsbD 6 = false ∧ s.status.getLsbD 5 = false ∧
      s.observe.status = s.status ∧ (s.dv = true → s.observe.dout = some s.dout ∧ s.doutPort = s.dout) ∧
      (s.dv = false → s.observe.dout = none)

/-! ### Whole-machine rules -/

/-- After the first Reset every step has a next state, and the machine stays past its first Reset (R106: the
transition function is total). The field `resetDone` that says so is the model's (log entry 6). -/
def Obligations.EveryStepCompletesAfterReset : Prop :=
  ∀ s : State, s.resetDone = true → ∃ t, step s = .next t ∧ t.resetDone = true

/-- U11, R78: every step keeps the invariant that `ERR ≤ 4` and that a result is present only if a key is loaded. -/
def Obligations.StepKeepsInvariant : Prop :=
  ∀ s t : State, s.Inv → step s = .next t → t.Inv

/-- The invariant holds at reset. -/
def Obligations.ResetSatisfiesInvariant : Prop := State.reset.Inv

/-- R12, R13: a step that changes `KEY` or `KV` is a Reset, or an `LDKEY` of a legal key on an engine that was neither
keyed nor halted. -/
def Obligations.OnlyLdkeyAndResetWriteTheKey : Prop :=
  ∀ s t : State, step s = .next t → t.key ≠ s.key ∨ t.kv ≠ s.kv →
    ∃ p rest, s.inputs = p :: rest ∧
      (p.rst = true ∨
        (p.cmdValid = true ∧ s.err = 0 ∧ s.kv = false ∧
          ∃ data, decode p.cmd = .ok (.ldkey data) ∧ data.toNat < 512 ∧ t.key.toNat = data.toNat ∧ t.kv = true))

/-- R14, R15: a step that changes `DOUT` or `DV` is a Reset, or a cipher command with legal operands on a keyed engine
that was not halted, and then `DOUT` holds that command's result. -/
def Obligations.OnlyCipherCommandsAndResetWriteTheResult : Prop :=
  ∀ s t : State, step s = .next t → t.dout ≠ s.dout ∨ t.dv ≠ s.dv →
    ∃ p rest, s.inputs = p :: rest ∧
      (p.rst = true ∨
        (p.cmdValid = true ∧ s.err = 0 ∧ s.kv = true ∧ t.dv = true ∧
          ∃ i, decode p.cmd = .ok i ∧ cipherResult s.key i = some t.dout))

/-- R16, R91: a step that changes `ERR` is a Reset, or turns 0 into one of the codes 1 to 4 and changes no other
register. -/
def Obligations.ErrIsStickyUntilReset : Prop :=
  ∀ s t : State, step s = .next t → t.err ≠ s.err →
    ∃ p rest, s.inputs = p :: rest ∧
      ((p.rst = true ∧ t.err = 0) ∨
        (p.rst = false ∧ s.err = 0 ∧ 1 ≤ t.err.toNat ∧ t.err.toNat ≤ 4 ∧ t = { s.withInputs rest with err := t.err }))

/-- R12: between two Resets the key is constant: once a key is loaded, no sequence of issued words changes `KEY` or
`KV`. -/
def Obligations.KeyIsConstantBetweenResets : Prop :=
  ∀ (as : List HostAction) (s : State), s.resetDone = true → s.kv = true → (∀ a ∈ as, a.isIssue = true) →
    ∃ t, runActions as s = .next t ∧ t.key = s.key ∧ t.kv = true

/-- R101, R103, R15: on a keyed engine that is not halted, any sequence of `ENC`, `DEC` and `PROC` with non-zero round
fields succeeds, none faults, and `DOUT` holds the result of the last one. -/
def Obligations.KeyedRunsNeverFault : Prop :=
  ∀ (is : List Instr) (last : Instr) (s : State), s.resetDone = true → s.err = 0 → s.kv = true →
    (∀ i ∈ is ++ [last], (cipherResult s.key i).isSome = true) →
    ∃ t, runActions ((is ++ [last]).map issueOf) s = .next t ∧ t.succeeded = true ∧ t.key = s.key ∧ t.kv = true ∧
      t.dv = true ∧ cipherResult s.key last = some t.dout

/-- R25: what the host observes depends on the flags and, where `DV = 1`, on `DOUT`, and on nothing else; and two
engines with equal `KV`, `DV`, `ERR`, equal `DOUT` where `DV = 1` and equal `KEY` where `KV = 1` are indistinguishable
by any sequence of host actions, whatever the hidden registers and the registers marked invalid held. -/
def Obligations.EqualVisibleStatesAreIndistinguishable : Prop :=
  (∀ s t : State, s.kv = t.kv → s.dv = t.dv → s.err = t.err → (s.dv = true → s.dout = t.dout) →
      s.observe = t.observe) ∧
    ∀ (as : List HostAction) (s t : State), s.resetDone = true → t.resetDone = true →
      s.kv = t.kv → s.dv = t.dv → s.err = t.err → (s.dv = true → s.dout = t.dout) → (s.kv = true → s.key = t.key) →
      ∃ s' t', runActions as s = .next s' ∧ runActions as t = .next t' ∧ s'.observe = t'.observe ∧
        s'.visible = t'.visible

/-- R49, R74: SD's API calls as command sequences, from any state at all, also before the first Reset: `RESET`,
`LDKEY k` and one cipher command leave its result on `DOUT` with `STATUS = 0x03`. -/
def Obligations.ApiCallsAsCommandSequences : Prop :=
  ∀ (s : State) (k : MasterKey) (v : Block),
    (∃ t, runActions [.reset, issueOf (.ldkey (BitVec.ofNat 12 k.toNat)), issueOf (.enc v)] s = .next t ∧
        t.observe = ⟨0x03, some (encrypt v k)⟩) ∧
      (∃ t, runActions [.reset, issueOf (.ldkey (BitVec.ofNat 12 k.toNat)), issueOf (.dec v)] s = .next t ∧
        t.observe = ⟨0x03, some (decrypt v k)⟩) ∧
      ∀ (sr er : BitVec 4) (a b : RoundIndex), sr.toNat = a.i → er.toNat = b.i →
        ∃ t, runActions [.reset, issueOf (.ldkey (BitVec.ofNat 12 k.toNat)), issueOf (.proc v sr er)] s = .next t ∧
          t.observe = ⟨0x03, some (process v k a b)⟩

/-- R37: commands take effect one at a time, in issue order, each in the state the one before left: a run of two
sequences is the run of the second from the end of the run of the first. -/
def Obligations.RunsComposeInIssueOrder : Prop :=
  ∀ (as bs : List HostAction) (s t : State), runActions as s = .next t →
    runActions (as ++ bs) s = runActions bs t
end

