-- ==== Sys2Proof/Laws/State.lean ====
section
/-! SUPPORT. The registers after each register update: one lemma per field per update, and the registers of the reset
state. -/

namespace Sys2Proof.Machine

/-! ### The reset state -/

@[simp] theorem State.reset_key : State.reset.key = 0 := rfl
@[simp] theorem State.reset_kv : State.reset.kv = false := rfl
@[simp] theorem State.reset_dout : State.reset.dout = 0 := rfl
@[simp] theorem State.reset_dv : State.reset.dv = false := rfl
@[simp] theorem State.reset_err : State.reset.err = 0 := rfl
@[simp] theorem State.reset_l : State.reset.l = 0 := rfl
@[simp] theorem State.reset_r : State.reset.r = 0 := rfl
@[simp] theorem State.reset_seq : State.reset.seq = ⟨0, .encryption⟩ := rfl
@[simp] theorem State.reset_draws : State.reset.draws = 0 := rfl
@[simp] theorem State.reset_resetDone : State.reset.resetDone = true := rfl
@[simp] theorem State.reset_inputs : State.reset.inputs = [] := rfl

/-! ### recordFault -/

@[simp] theorem State.recordFault_key (c : FaultCause) (s : State) :
    (s.recordFault c).key = s.key := rfl
@[simp] theorem State.recordFault_kv (c : FaultCause) (s : State) :
    (s.recordFault c).kv = s.kv := rfl
@[simp] theorem State.recordFault_dout (c : FaultCause) (s : State) :
    (s.recordFault c).dout = s.dout := rfl
@[simp] theorem State.recordFault_dv (c : FaultCause) (s : State) :
    (s.recordFault c).dv = s.dv := rfl
@[simp] theorem State.recordFault_err (c : FaultCause) (s : State) :
    (s.recordFault c).err = c.code := rfl
@[simp] theorem State.recordFault_l (c : FaultCause) (s : State) :
    (s.recordFault c).l = s.l := rfl
@[simp] theorem State.recordFault_r (c : FaultCause) (s : State) :
    (s.recordFault c).r = s.r := rfl
@[simp] theorem State.recordFault_seq (c : FaultCause) (s : State) :
    (s.recordFault c).seq = s.seq := rfl
@[simp] theorem State.recordFault_draws (c : FaultCause) (s : State) :
    (s.recordFault c).draws = s.draws := rfl
@[simp] theorem State.recordFault_resetDone (c : FaultCause) (s : State) :
    (s.recordFault c).resetDone = s.resetDone := rfl
@[simp] theorem State.recordFault_inputs (c : FaultCause) (s : State) :
    (s.recordFault c).inputs = s.inputs := rfl

/-! ### applyReset -/

@[simp] theorem State.applyReset_key (s : State) :
    s.applyReset.key = Config.unspecifiedKey s.draws := rfl
@[simp] theorem State.applyReset_kv (s : State) :
    s.applyReset.kv = false := rfl
@[simp] theorem State.applyReset_dout (s : State) :
    s.applyReset.dout = Config.unspecifiedDout s.draws := rfl
@[simp] theorem State.applyReset_dv (s : State) :
    s.applyReset.dv = false := rfl
@[simp] theorem State.applyReset_err (s : State) :
    s.applyReset.err = 0 := rfl
@[simp] theorem State.applyReset_l (s : State) :
    s.applyReset.l = Config.unspecifiedL s.draws := rfl
@[simp] theorem State.applyReset_r (s : State) :
    s.applyReset.r = Config.unspecifiedR s.draws := rfl
@[simp] theorem State.applyReset_seq (s : State) :
    s.applyReset.seq = Config.unspecifiedSeq s.draws := rfl
@[simp] theorem State.applyReset_draws (s : State) :
    s.applyReset.draws = s.draws + 1 := rfl
@[simp] theorem State.applyReset_resetDone (s : State) :
    s.applyReset.resetDone = true := rfl
@[simp] theorem State.applyReset_inputs (s : State) :
    s.applyReset.inputs = s.inputs := rfl

/-! ### loadKey -/

@[simp] theorem State.loadKey_key (k : MasterKey) (s : State) :
    (s.loadKey k).key = k := rfl
@[simp] theorem State.loadKey_kv (k : MasterKey) (s : State) :
    (s.loadKey k).kv = true := rfl
@[simp] theorem State.loadKey_dout (k : MasterKey) (s : State) :
    (s.loadKey k).dout = s.dout := rfl
@[simp] theorem State.loadKey_dv (k : MasterKey) (s : State) :
    (s.loadKey k).dv = s.dv := rfl
@[simp] theorem State.loadKey_err (k : MasterKey) (s : State) :
    (s.loadKey k).err = s.err := rfl
@[simp] theorem State.loadKey_l (k : MasterKey) (s : State) :
    (s.loadKey k).l = s.l := rfl
@[simp] theorem State.loadKey_r (k : MasterKey) (s : State) :
    (s.loadKey k).r = s.r := rfl
@[simp] theorem State.loadKey_seq (k : MasterKey) (s : State) :
    (s.loadKey k).seq = s.seq := rfl
@[simp] theorem State.loadKey_draws (k : MasterKey) (s : State) :
    (s.loadKey k).draws = s.draws := rfl
@[simp] theorem State.loadKey_resetDone (k : MasterKey) (s : State) :
    (s.loadKey k).resetDone = s.resetDone := rfl
@[simp] theorem State.loadKey_inputs (k : MasterKey) (s : State) :
    (s.loadKey k).inputs = s.inputs := rfl

/-! ### startPass -/

@[simp] theorem State.startPass_key (v : Block) (a b : RoundIndex) (s : State) :
    (s.startPass v a b).key = s.key := rfl
@[simp] theorem State.startPass_kv (v : Block) (a b : RoundIndex) (s : State) :
    (s.startPass v a b).kv = s.kv := rfl
@[simp] theorem State.startPass_dout (v : Block) (a b : RoundIndex) (s : State) :
    (s.startPass v a b).dout = s.dout := rfl
@[simp] theorem State.startPass_dv (v : Block) (a b : RoundIndex) (s : State) :
    (s.startPass v a b).dv = s.dv := rfl
@[simp] theorem State.startPass_err (v : Block) (a b : RoundIndex) (s : State) :
    (s.startPass v a b).err = s.err := rfl
@[simp] theorem State.startPass_l (v : Block) (a b : RoundIndex) (s : State) :
    (s.startPass v a b).l = (split v).l := rfl
@[simp] theorem State.startPass_r (v : Block) (a b : RoundIndex) (s : State) :
    (s.startPass v a b).r = (split v).r := rfl
@[simp] theorem State.startPass_seq (v : Block) (a b : RoundIndex) (s : State) :
    (s.startPass v a b).seq = ⟨a.i, passDirection a b⟩ := rfl
@[simp] theorem State.startPass_draws (v : Block) (a b : RoundIndex) (s : State) :
    (s.startPass v a b).draws = s.draws := rfl
@[simp] theorem State.startPass_resetDone (v : Block) (a b : RoundIndex) (s : State) :
    (s.startPass v a b).resetDone = s.resetDone := rfl
@[simp] theorem State.startPass_inputs (v : Block) (a b : RoundIndex) (s : State) :
    (s.startPass v a b).inputs = s.inputs := rfl

/-! ### writeResult -/

@[simp] theorem State.writeResult_key (s : State) :
    s.writeResult.key = s.key := rfl
@[simp] theorem State.writeResult_kv (s : State) :
    s.writeResult.kv = s.kv := rfl
@[simp] theorem State.writeResult_dout (s : State) :
    s.writeResult.dout = assemble s.halves := rfl
@[simp] theorem State.writeResult_dv (s : State) :
    s.writeResult.dv = true := rfl
@[simp] theorem State.writeResult_err (s : State) :
    s.writeResult.err = s.err := rfl
@[simp] theorem State.writeResult_l (s : State) :
    s.writeResult.l = s.l := rfl
@[simp] theorem State.writeResult_r (s : State) :
    s.writeResult.r = s.r := rfl
@[simp] theorem State.writeResult_seq (s : State) :
    s.writeResult.seq = s.seq := rfl
@[simp] theorem State.writeResult_draws (s : State) :
    s.writeResult.draws = s.draws := rfl
@[simp] theorem State.writeResult_resetDone (s : State) :
    s.writeResult.resetDone = s.resetDone := rfl
@[simp] theorem State.writeResult_inputs (s : State) :
    s.writeResult.inputs = s.inputs := rfl

/-! ### releaseHidden -/

@[simp] theorem State.releaseHidden_key (s : State) :
    s.releaseHidden.key = s.key := rfl
@[simp] theorem State.releaseHidden_kv (s : State) :
    s.releaseHidden.kv = s.kv := rfl
@[simp] theorem State.releaseHidden_dout (s : State) :
    s.releaseHidden.dout = s.dout := rfl
@[simp] theorem State.releaseHidden_dv (s : State) :
    s.releaseHidden.dv = s.dv := rfl
@[simp] theorem State.releaseHidden_err (s : State) :
    s.releaseHidden.err = s.err := rfl
@[simp] theorem State.releaseHidden_l (s : State) :
    s.releaseHidden.l = Config.unspecifiedL s.draws := rfl
@[simp] theorem State.releaseHidden_r (s : State) :
    s.releaseHidden.r = Config.unspecifiedR s.draws := rfl
@[simp] theorem State.releaseHidden_seq (s : State) :
    s.releaseHidden.seq = Config.unspecifiedSeq s.draws := rfl
@[simp] theorem State.releaseHidden_draws (s : State) :
    s.releaseHidden.draws = s.draws + 1 := rfl
@[simp] theorem State.releaseHidden_resetDone (s : State) :
    s.releaseHidden.resetDone = s.resetDone := rfl
@[simp] theorem State.releaseHidden_inputs (s : State) :
    s.releaseHidden.inputs = s.inputs := rfl

/-! ### facing -/

@[simp] theorem State.facing_key (as : List HostAction) (s : State) :
    (s.facing as).key = s.key := rfl
@[simp] theorem State.facing_kv (as : List HostAction) (s : State) :
    (s.facing as).kv = s.kv := rfl
@[simp] theorem State.facing_dout (as : List HostAction) (s : State) :
    (s.facing as).dout = s.dout := rfl
@[simp] theorem State.facing_dv (as : List HostAction) (s : State) :
    (s.facing as).dv = s.dv := rfl
@[simp] theorem State.facing_err (as : List HostAction) (s : State) :
    (s.facing as).err = s.err := rfl
@[simp] theorem State.facing_l (as : List HostAction) (s : State) :
    (s.facing as).l = s.l := rfl
@[simp] theorem State.facing_r (as : List HostAction) (s : State) :
    (s.facing as).r = s.r := rfl
@[simp] theorem State.facing_seq (as : List HostAction) (s : State) :
    (s.facing as).seq = s.seq := rfl
@[simp] theorem State.facing_draws (as : List HostAction) (s : State) :
    (s.facing as).draws = s.draws := rfl
@[simp] theorem State.facing_resetDone (as : List HostAction) (s : State) :
    (s.facing as).resetDone = s.resetDone := rfl
@[simp] theorem State.facing_inputs (as : List HostAction) (s : State) :
    (s.facing as).inputs = as.map HostAction.sample := rfl

/-! ### withInputs -/

@[simp] theorem State.withInputs_key (ps : List PortSample) (s : State) :
    (s.withInputs ps).key = s.key := rfl
@[simp] theorem State.withInputs_kv (ps : List PortSample) (s : State) :
    (s.withInputs ps).kv = s.kv := rfl
@[simp] theorem State.withInputs_dout (ps : List PortSample) (s : State) :
    (s.withInputs ps).dout = s.dout := rfl
@[simp] theorem State.withInputs_dv (ps : List PortSample) (s : State) :
    (s.withInputs ps).dv = s.dv := rfl
@[simp] theorem State.withInputs_err (ps : List PortSample) (s : State) :
    (s.withInputs ps).err = s.err := rfl
@[simp] theorem State.withInputs_l (ps : List PortSample) (s : State) :
    (s.withInputs ps).l = s.l := rfl
@[simp] theorem State.withInputs_r (ps : List PortSample) (s : State) :
    (s.withInputs ps).r = s.r := rfl
@[simp] theorem State.withInputs_seq (ps : List PortSample) (s : State) :
    (s.withInputs ps).seq = s.seq := rfl
@[simp] theorem State.withInputs_draws (ps : List PortSample) (s : State) :
    (s.withInputs ps).draws = s.draws := rfl
@[simp] theorem State.withInputs_resetDone (ps : List PortSample) (s : State) :
    (s.withInputs ps).resetDone = s.resetDone := rfl
@[simp] theorem State.withInputs_inputs (ps : List PortSample) (s : State) :
    (s.withInputs ps).inputs = ps := rfl

@[simp] theorem State.withInputs_withInputs (ps qs : List PortSample) (s : State) :
    (s.withInputs ps).withInputs qs = s.withInputs qs := rfl

@[simp] theorem State.withInputs_self (s : State) : s.withInputs s.inputs = s := rfl

@[simp] theorem State.visible_withInputs (ps : List PortSample) (s : State) :
    (s.withInputs ps).visible = s.visible := rfl

end Sys2Proof.Machine
end

