-- ==== Sys2Proof/Laws/Ops.lean ====
section
/-! SUPPORT. What each shared operation can do, said once: the checks, the operands, and the round datapath, which
computes `Process` of the function layer. -/

namespace Sys2Proof.Machine

/-! ### The checks -/

/-- After the first Reset the engine is ready between any two commands (R26, R102). -/
@[simp] theorem State.cmdReady_of_resetDone {s : State} (h : s.resetDone = true) : s.cmdReady = true := by
  simp [State.cmdReady, h]

@[simp] theorem State.halted_iff (s : State) : s.halted = true ↔ s.err ≠ 0 := by
  simp [State.halted]

theorem unlessHalted_of_halted {s : State} (h : s.err ≠ 0) (c : State → Result) :
    unlessHalted s c = .next s :=
  if_pos ((State.halted_iff s).2 h)

theorem unlessHalted_of_running {s : State} (h : s.err = 0) (c : State → Result) :
    unlessHalted s c = c s := by
  simp [unlessHalted, h]

theorem requireKey_of_keyed {s : State} (h : s.kv = true) (c : State → Result) :
    requireKey s c = c s := by
  simp [requireKey, h]

theorem requireKey_of_unkeyed {s : State} (h : s.kv = false) (c : State → Result) :
    requireKey s c = .next (s.recordFault .noKey) := by
  simp [requireKey, h, raise]

/-! ### The operands -/

/-- The key operand is legal exactly below 512, and is then the same number (R45). -/
theorem keyOperand_eq_some_iff (data : BitVec 12) (k : MasterKey) :
    keyOperand data = some k ↔ data.toNat = k.toNat := by
  simp only [keyOperand, ← BitVec.toNat_inj, BitVec.extractLsb'_toNat]
  split <;> rename_i h <;>
    simp only [Option.some.injEq, reduceCtorEq, false_iff, ← BitVec.toNat_inj, BitVec.extractLsb'_toNat,
      Nat.shiftRight_eq_div_pow] at * <;>
    (have := data.isLt; have := k.isLt; simp at *; omega)

theorem keyOperand_eq_none_iff (data : BitVec 12) : keyOperand data = none ↔ 512 ≤ data.toNat := by
  simp only [keyOperand, ← BitVec.toNat_inj, BitVec.extractLsb'_toNat, Nat.shiftRight_eq_div_pow]
  split <;> rename_i h <;> simp at * <;> (have := data.isLt; omega)

@[simp] theorem roundOfNat_i (x : RoundIndex) : roundOfNat x.i = some x := rfl

theorem roundOfNat_eq_some_iff (n : Nat) (x : RoundIndex) : roundOfNat n = some x ↔ n = x.i := by
  cases n <;> simp [roundOfNat, RoundIndex.i, RoundIndex.ext_iff, eq_comm]

theorem roundOperand_eq_some_iff (f : Nibble) (x : RoundIndex) : roundOperand f = some x ↔ f.toNat = x.i :=
  roundOfNat_eq_some_iff f.toNat x

theorem roundOperand_eq_none_iff (f : Nibble) : roundOperand f = none ↔ f = 0 := by
  rw [← BitVec.toNat_inj]
  unfold roundOperand
  cases f.toNat <;> simp [roundOfNat]

/-! ### The round datapath -/

/-- One round on the registers is one `RoundStep` on the halves, and moves nothing else but the sequencer. -/
theorem State.runRound_eq {st : State} {i : RoundIndex} (h : st.seq.index = i.i) :
    st.runRound =
      { st with
        l := (roundStep st.key i st.halves).l, r := (roundStep st.key i st.halves).r
        seq := Sequencer.advance st.seq } := by
  simp [State.runRound, h]

/-- The halves after `n` rounds from round `a` in direction `d`. -/
def halvesAfter (k : MasterKey) (d : Direction) (a : RoundIndex) (n : Nat) (p : Halves) : Halves :=
  ((List.range n).map (nthRound d a)).foldl (fun p i => roundStep k i p) p

theorem nthRound_succ (d : Direction) (a : RoundIndex) (n : Nat) :
    nthRound d a (n + 1) = nthRound d (nthRound d a 1) n := by
  cases d <;> simp [nthRound] <;> omega

theorem halvesAfter_succ (k : MasterKey) (d : Direction) (a : RoundIndex) (n : Nat) (p : Halves) :
    halvesAfter k d a (n + 1) p = halvesAfter k d (nthRound d a 1) n (roundStep k a p) := by
  have h : nthRound d a 0 = a := by cases d <;> rfl
  simp only [halvesAfter, List.range_succ_eq_map, List.map_cons, List.foldl_cons, h, List.map_map]
  congr 2
  funext m
  exact nthRound_succ d a m

/-- `n` rounds of the counted loop, from a state whose sequencer stands at round `a`: the halves are those of the
list of rounds, and every register but `L`, `R` and the sequencer is as before. In a decryption pass the loop must
not run below round 1. -/
theorem State.runRounds_eq (n : Nat) (a : RoundIndex) (d : Direction) (st : State)
    (hseq : st.seq = ⟨a.i, d⟩) (hlow : d = .decryption → n ≤ a.i) :
    ∃ q, State.runRounds n st =
      { st with
        l := (halvesAfter st.key d a n st.halves).l, r := (halvesAfter st.key d a n st.halves).r, seq := q } := by
  induction n generalizing a st with
  | zero => exact ⟨st.seq, by simp [State.runRounds, halvesAfter, State.halves]⟩
  | succ n ih =>
    rw [State.runRounds, State.runRound_eq (i := a) (by rw [hseq])]
    cases n with
    | zero =>
      refine ⟨Sequencer.advance st.seq, ?_⟩
      rw [halvesAfter_succ]
      rfl
    | succ m =>
      obtain ⟨q, hq⟩ := ih (nthRound d a 1)
        { st with
          l := (roundStep st.key a st.halves).l, r := (roundStep st.key a st.halves).r
          seq := Sequencer.advance st.seq }
        (by
          cases d with
          | encryption => simp [hseq, Sequencer.advance, nthRound, RoundIndex.i]
          | decryption =>
            have := hlow rfl
            simp only [hseq, Sequencer.advance, nthRound, RoundIndex.i, Sequencer.mk.injEq, and_true] at *
            omega)
        (by
          intro hd
          subst hd
          have := hlow rfl
          simp only [nthRound, RoundIndex.i] at *
          omega)
      exact ⟨q, by rw [hq, halvesAfter_succ st.key d a (m + 1)]; rfl⟩

/-- A whole cipher pass: `DOUT` is `Process` of the block under `KEY`, `DV` is set, the hidden registers are free
values, and nothing else changes (R79 to R81). -/
theorem State.cipherPass_eq (v : Block) (a b : RoundIndex) (st : State) :
    st.cipherPass v a b =
      { st with
        dout := process v st.key a b, dv := true
        l := Config.unspecifiedL st.draws, r := Config.unspecifiedR st.draws
        seq := Config.unspecifiedSeq st.draws, draws := st.draws + 1 } := by
  obtain ⟨q, hq⟩ := State.runRounds_eq (roundCount a b) a (passDirection a b) (st.startPass v a b) rfl (by
    intro hd
    simp only [passDirection] at hd
    split at hd
    · cases hd
    · rename_i h
      simp only [roundCount, passDirection, if_neg h]
      simp only [RoundIndex.i] at *
      omega)
  rw [State.cipherPass, hq]
  simp [State.releaseHidden, State.writeResult, process, halvesAfter, rounds, State.halves]

end Sys2Proof.Machine
end

