-- ==== Sys2Proof/Laws/Exec.lean ====
section
/-! SUPPORT. What executing one command, one word and one step can do, each said once. -/

namespace Sys2Proof.Machine

/-- The state after a completed cipher command with the result `d`. -/
def State.withResult (s : State) (d : Block) : State :=
  { s with
    dout := d, dv := true, l := Config.unspecifiedL s.draws, r := Config.unspecifiedR s.draws
    seq := Config.unspecifiedSeq s.draws, draws := s.draws + 1 }

/-! ### The visible state after each outcome -/

@[simp] theorem State.visible_recordFault (c : FaultCause) (s : State) :
    (s.recordFault c).visible = { s.visible with err := c.code } := rfl

@[simp] theorem State.visible_loadKey (k : MasterKey) (s : State) :
    (s.loadKey k).visible = { s.visible with key := some k, kv := true } := rfl

@[simp] theorem State.visible_withResult (d : Block) (s : State) :
    (s.withResult d).visible = { s.visible with dout := some d, dv := true } := rfl

@[simp] theorem State.visible_applyReset (s : State) : s.applyReset.visible = State.reset.visible := rfl

/-- All that the host observes is a part of the visible state (R25). -/
theorem State.observe_of_visible (s : State) :
    s.observe =
      ⟨BitVec.ofNat 8 ((s.visible.err.toNat <<< 2) + (s.visible.dv.toNat <<< 1) + s.visible.kv.toNat),
        s.visible.dout⟩ := rfl

/-! ### One command, one word, one step -/

/-- The six things a command can do: be discarded, raise RangeViolation, raise KeyLocked, raise NoKey, load the key, or
write a cipher result. -/
theorem exec_cases (i : Instr) (s : State) :
    (s.err ≠ 0 ∧ exec i s = .next s) ∨
    (s.err = 0 ∧ i.wellFormed = false ∧ exec i s = .next (s.recordFault .rangeViolation)) ∨
    (s.err = 0 ∧ i.wellFormed = true ∧ (∃ data, i = .ldkey data) ∧ s.kv = true ∧
      exec i s = .next (s.recordFault .keyLocked)) ∨
    (s.err = 0 ∧ i.wellFormed = true ∧ (¬∃ data, i = .ldkey data) ∧ s.kv = false ∧
      exec i s = .next (s.recordFault .noKey)) ∨
    (s.err = 0 ∧ s.kv = false ∧ ∃ data k, i = .ldkey data ∧ data.toNat = k.toNat ∧ i.wellFormed = true ∧
      exec i s = .next (s.loadKey k)) ∨
    (s.err = 0 ∧ s.kv = true ∧ i.wellFormed = true ∧ (¬∃ data, i = .ldkey data) ∧
      ∃ d, cipherResult s.key i = some d ∧ exec i s = .next (s.withResult d)) := by
  by_cases herr : s.err = 0
  · cases i with
    | ldkey data =>
      simp only [exec, execLdkey, unlessHalted_of_running herr]
      cases hk : keyOperand data with
      | none =>
        rw [keyOperand_eq_none_iff] at hk
        exact .inr (.inl ⟨herr, by simp [Instr.wellFormed, legalKeyData]; omega, rfl⟩)
      | some k =>
        rw [keyOperand_eq_some_iff] at hk
        have hwf : (Instr.ldkey data).wellFormed = true := by
          have := k.isLt
          simp [Instr.wellFormed, legalKeyData]
          omega
        cases hkv : s.kv with
        | true => exact .inr (.inr (.inl ⟨herr, hwf, ⟨data, rfl⟩, rfl, rfl⟩))
        | false => exact .inr (.inr (.inr (.inr (.inl ⟨herr, rfl, data, k, rfl, hk, hwf, by simp⟩))))
    | enc v =>
      simp only [exec, execEnc, unlessHalted_of_running herr]
      cases hkv : s.kv with
      | true =>
        exact .inr (.inr (.inr (.inr (.inr ⟨herr, rfl, rfl, by simp, encrypt v s.key, rfl, by
          rw [requireKey_of_keyed hkv, State.cipherPass_eq]; rfl⟩))))
      | false => exact .inr (.inr (.inr (.inl ⟨herr, rfl, by simp, rfl, requireKey_of_unkeyed hkv _⟩)))
    | dec v =>
      simp only [exec, execDec, unlessHalted_of_running herr]
      cases hkv : s.kv with
      | true =>
        exact .inr (.inr (.inr (.inr (.inr ⟨herr, rfl, rfl, by simp, decrypt v s.key, rfl, by
          rw [requireKey_of_keyed hkv, State.cipherPass_eq]; rfl⟩))))
      | false => exact .inr (.inr (.inr (.inl ⟨herr, rfl, by simp, rfl, requireKey_of_unkeyed hkv _⟩)))
    | proc v sr er =>
      simp only [exec, execProc, unlessHalted_of_running herr]
      have hwf : (Instr.proc v sr er).wellFormed = false ↔ roundOperand sr = none ∨ roundOperand er = none := by
        simp only [roundOperand_eq_none_iff, Instr.wellFormed, legalRoundField, ← BitVec.toNat_inj]
        simp [Nat.one_le_iff_ne_zero]
        tauto
      cases ha : roundOperand sr with
      | none => exact .inr (.inl ⟨herr, hwf.2 (.inl ha), rfl⟩)
      | some a =>
        cases hb : roundOperand er with
        | none => exact .inr (.inl ⟨herr, hwf.2 (.inr hb), rfl⟩)
        | some b =>
          have hok : (Instr.proc v sr er).wellFormed = true := by
            rw [← Bool.not_eq_false, hwf, ha, hb]
            simp
          cases hkv : s.kv with
          | true =>
            exact .inr (.inr (.inr (.inr (.inr ⟨herr, rfl, hok, by simp, process v s.key a b, by
              simp [cipherResult, ha, hb], by
              simp only [requireKey_of_keyed hkv, State.cipherPass_eq]; rfl⟩))))
          | false => exact .inr (.inr (.inr (.inl ⟨herr, hok, by simp, rfl, requireKey_of_unkeyed hkv _⟩)))
  · refine .inl ⟨herr, ?_⟩
    cases i <;> simp only [exec, execLdkey, execEnc, execDec, execProc] <;> exact unlessHalted_of_halted herr _

/-- A word that decodes is executed as its command, halted or not. -/
theorem execute_of_decode {cw : CommandWord} {i : Instr} (h : decode cw = .ok i) (s : State) :
    execute cw s = exec i s := by
  by_cases herr : s.err = 0
  · simp [execute, h, herr]
  · rcases exec_cases i s with ⟨-, h'⟩ | h' | h' | h' | h' | h'
    · rw [h', execute, if_pos ((State.halted_iff s).2 herr)]
    all_goals exact absurd h'.1 herr

/-- A word that does not decode is discarded by a halted engine, and else raises IllegalCommand. -/
theorem execute_of_illegal {cw : CommandWord} {why : IllegalWord} (h : decode cw = .error why) (s : State) :
    execute cw s = if s.err ≠ 0 then .next s else .next (s.recordFault .illegalCommand) := by
  simp [execute, h, raise]

/-- What executing one word can do. -/
theorem execute_cases (cw : CommandWord) (s : State) :
    execute cw s = .next s ∨
    (s.err = 0 ∧ ∃ c : FaultCause, c ≠ .tableFault ∧ execute cw s = .next (s.recordFault c)) ∨
    (s.err = 0 ∧ s.kv = false ∧ ∃ data k, decode cw = .ok (.ldkey data) ∧ data.toNat = k.toNat ∧
      execute cw s = .next (s.loadKey k)) ∨
    (s.err = 0 ∧ s.kv = true ∧ ∃ i d, decode cw = .ok i ∧ cipherResult s.key i = some d ∧
      execute cw s = .next (s.withResult d)) := by
  cases hd : decode cw with
  | error why =>
    rw [execute_of_illegal hd]
    split_ifs with h
    · exact .inl rfl
    · exact .inr (.inl ⟨not_ne_iff.1 h, _, by simp, rfl⟩)
  | ok i =>
    rw [execute_of_decode hd]
    rcases exec_cases i s with ⟨-, e⟩ | ⟨h, -, e⟩ | ⟨h, -, -, -, e⟩ | ⟨h, -, -, -, e⟩ |
      ⟨h, hkv, data, k, rfl, hk, -, e⟩ | ⟨h, hkv, -, -, d, hres, e⟩
    · exact .inl e
    · exact .inr (.inl ⟨h, _, by simp, e⟩)
    · exact .inr (.inl ⟨h, _, by simp, e⟩)
    · exact .inr (.inl ⟨h, _, by simp, e⟩)
    · exact .inr (.inr (.inl ⟨h, hkv, data, k, rfl, hk, e⟩))
    · exact .inr (.inr (.inr ⟨h, hkv, i, d, rfl, hres, e⟩))

/-- The step with no edge to come. -/
theorem step_of_no_input {s : State} (h : s.inputs = []) : step s = .next s := by
  simp [step, h]

/-- The step at an edge. -/
theorem step_of_input {s : State} {p : PortSample} {rest : List PortSample} (h : s.inputs = p :: rest) :
    step s = takeSample p (s.withInputs rest) := by
  simp [step, h]

/-- What a step that has a next state can be: nothing to do, an edge that asks for nothing, a Reset, or one word. -/
theorem step_cases {s t : State} (h : step s = .next t) :
    (s.inputs = [] ∧ t = s) ∨
    ∃ p rest, s.inputs = p :: rest ∧
      (p.action = none ∧ t = s.withInputs rest ∨
        p.rst = true ∧ t = (s.withInputs rest).applyReset ∨
        p.rst = false ∧ p.cmdValid = true ∧ s.resetDone = true ∧ execute p.cmd (s.withInputs rest) = .next t) := by
  cases hi : s.inputs with
  | nil =>
    rw [step_of_no_input hi] at h
    cases h
    exact .inl ⟨rfl, rfl⟩
  | cons p rest =>
    refine .inr ⟨p, rest, rfl, ?_⟩
    rw [step_of_input hi] at h
    cases hr : p.rst
    · cases hv : p.cmdValid
      · have ha : p.action = none := by simp [PortSample.action, hr, hv]
        rw [takeSample, ha] at h
        cases h
        exact .inl ⟨ha, rfl⟩
      · have ha : p.action = some (.issue p.cmd) := by simp [PortSample.action, hr, hv]
        rw [takeSample, ha] at h
        cases hd : s.resetDone
        · simp [perform, hd] at h
        · simp only [perform, State.withInputs_resetDone, hd, if_true] at h
          exact .inr (.inr ⟨rfl, rfl, rfl, h⟩)
    · have ha : p.action = some .reset := by simp [PortSample.action, hr]
      rw [takeSample, ha] at h
      cases h
      exact .inr (.inl ⟨rfl, rfl⟩)

end Sys2Proof.Machine
end

