-- ==== Sys2Proof/Laws/Fields.lean ====
section
/-! SUPPORT. The numbers behind the bit fields: of a command word and of a block. Each definition is unfolded here
once. -/

namespace Sys2Proof

theorem packFields_toNat (op sr er : Nibble) (data : BitVec 12) :
    (packFields op sr er data).toNat =
      op.toNat * 2 ^ 20 + sr.toNat * 2 ^ 16 + er.toNat * 2 ^ 12 + data.toNat := by
  have := op.isLt
  have := sr.isLt
  have := er.isLt
  have := data.isLt
  simp only [packFields, BitVec.toNat_ofNat, Nat.shiftLeft_eq]
  omega

theorem opField_toNat (cw : CommandWord) : (opField cw).toNat = cw.toNat / 2 ^ 20 % 16 := by
  simp [opField, Nat.shiftRight_eq_div_pow]

theorem srField_toNat (cw : CommandWord) : (srField cw).toNat = cw.toNat / 2 ^ 16 % 16 := by
  simp [srField, Nat.shiftRight_eq_div_pow]

theorem erField_toNat (cw : CommandWord) : (erField cw).toNat = cw.toNat / 2 ^ 12 % 16 := by
  simp [erField, Nat.shiftRight_eq_div_pow]

theorem dataField_toNat (cw : CommandWord) : (dataField cw).toNat = cw.toNat % 4096 := by
  simp [dataField]

namespace Machine

theorem split_l_toNat (v : Block) : (split v).l.toNat = v.toNat / 64 := by
  have := v.isLt
  simp only [split, BitVec.extractLsb'_toNat, Nat.shiftRight_eq_div_pow]
  omega

theorem split_r_toNat (v : Block) : (split v).r.toNat = v.toNat % 64 := by
  simp [split]

theorem assemble_toNat (p : Halves) : (assemble p).toNat = p.r.toNat * 64 + p.l.toNat := by
  have := p.r.isLt
  have := p.l.isLt
  simp only [assemble, BitVec.toNat_ofNat, Nat.shiftLeft_eq]
  omega

end Machine

end Sys2Proof
end

