-- ==== Sys2Proof/Laws/PerInstr.lean ====
section
/-! SUPPORT. Facts that hold of every command as syntax, one lemma per constructor. -/

namespace Sys2Proof.Laws

/-- The command's word matches the decode pattern of its row (30_encoding.md R44). -/
def RowCovers.Statement (i : Instr) : Prop := i.row.covers (encode i) = true

/-- Masking away the fields below bit `n` is shifting them out and back. -/
theorem and_highMask_toNat (w m : CommandWord) (n : Nat) (hm : m.toNat = (2 ^ (24 - n) - 1) * 2 ^ n) (hn : n ≤ 24) :
    (w &&& m).toNat = w.toNat / 2 ^ n * 2 ^ n := by
  have hsplit : m.toNat = (2 ^ (24 - n) - 1) <<< n := by rw [hm, Nat.shiftLeft_eq]
  apply Nat.eq_of_testBit_eq
  intro j
  rw [BitVec.toNat_and, hsplit, ← Nat.shiftLeft_eq, ← Nat.shiftRight_eq_div_pow, Nat.testBit_and,
    Nat.testBit_shiftLeft, Nat.testBit_shiftLeft, Nat.testBit_shiftRight, Nat.testBit_two_pow_sub_one]
  by_cases hj : n ≤ j
  · by_cases h24 : j < 24
    · simp [hj, show j - n < 24 - n by omega]
    · have : w.toNat.testBit j = false :=
        Nat.testBit_lt_two_pow (lt_of_lt_of_le w.isLt (Nat.pow_le_pow_right (by decide) (by omega)))
      simp [hj, this]
  · simp [hj]

/-- A mask `0xFFF000` keeps the three upper fields. -/
theorem and_mask_data_toNat (w : CommandWord) : (w &&& 0xFFF000).toNat = w.toNat / 2 ^ 12 * 2 ^ 12 :=
  and_highMask_toNat w _ 12 (by decide) (by decide)

/-- A mask `0xF00000` keeps the opcode. -/
theorem and_mask_op_toNat (w : CommandWord) : (w &&& 0xF00000).toNat = w.toNat / 2 ^ 20 * 2 ^ 20 :=
  and_highMask_toNat w _ 20 (by decide) (by decide)

theorem RowCovers.ldkey (data : BitVec 12) : RowCovers.Statement (.ldkey data) := by
  have := data.isLt
  simp only [RowCovers.Statement, OpcodeRow.covers, Instr.row, encode, ldkeyRow, beq_iff_eq,
    ← BitVec.toNat_inj, and_mask_data_toNat, packFields_toNat]
  simp
  omega

theorem RowCovers.enc (data : BitVec 12) : RowCovers.Statement (.enc data) := by
  have := data.isLt
  simp only [RowCovers.Statement, OpcodeRow.covers, Instr.row, encode, encRow, beq_iff_eq,
    ← BitVec.toNat_inj, and_mask_data_toNat, packFields_toNat]
  simp
  omega

theorem RowCovers.dec (data : BitVec 12) : RowCovers.Statement (.dec data) := by
  have := data.isLt
  simp only [RowCovers.Statement, OpcodeRow.covers, Instr.row, encode, decRow, beq_iff_eq,
    ← BitVec.toNat_inj, and_mask_data_toNat, packFields_toNat]
  simp
  omega

theorem RowCovers.proc (data : BitVec 12) (sr er : BitVec 4) : RowCovers.Statement (.proc data sr er) := by
  have := data.isLt
  have := sr.isLt
  have := er.isLt
  simp only [RowCovers.Statement, OpcodeRow.covers, Instr.row, encode, procRow, beq_iff_eq,
    ← BitVec.toNat_inj, and_mask_op_toNat, packFields_toNat]
  simp
  omega

end Sys2Proof.Laws
end

