-- ==== Sys2Proof/Laws/Runs.lean ====
section
/-! SUPPORT. Runs: the engine neither reads nor writes its coming port samples, so a run takes its actions one by
one. -/

namespace Sys2Proof.Machine

/-- A command neither reads nor writes the coming port samples. -/
theorem exec_withInputs {i : Instr} {s t : State} (h : exec i s = .next t) (ps : List PortSample) :
    exec i (s.withInputs ps) = .next (t.withInputs ps) := by
  have h1 : (s.withInputs ps).halted = s.halted := rfl
  have h2 : (s.withInputs ps).kv = s.kv := rfl
  cases i with
  | ldkey data =>
    simp only [exec, execLdkey, unlessHalted, h1] at *
    cases hk : keyOperand data <;> simp only [hk, h2] at * <;> split_ifs at * <;> cases h <;> rfl
  | enc v =>
    simp only [exec, execEnc, unlessHalted, requireKey, State.cipherPass_eq, h1, h2] at *
    split_ifs at * <;> cases h <;> rfl
  | dec v =>
    simp only [exec, execDec, unlessHalted, requireKey, State.cipherPass_eq, h1, h2] at *
    split_ifs at * <;> cases h <;> rfl
  | proc v sr er =>
    simp only [exec, execProc, unlessHalted, requireKey, State.cipherPass_eq, h1, h2] at *
    split_ifs at * with hh
    · cases h
      rfl
    all_goals (split at * <;> cases h <;> rfl)

theorem execute_withInputs {cw : CommandWord} {s t : State} (h : execute cw s = .next t) (ps : List PortSample) :
    execute cw (s.withInputs ps) = .next (t.withInputs ps) := by
  cases hd : decode cw with
  | ok i =>
    rw [execute_of_decode hd] at *
    exact exec_withInputs h ps
  | error why =>
    rw [execute_of_illegal hd] at *
    rw [State.withInputs_err]
    split_ifs at * <;> cases h <;> rfl

theorem perform_withInputs {a : HostAction} {s t : State} (h : perform a s = .next t) (ps : List PortSample) :
    perform a (s.withInputs ps) = .next (t.withInputs ps) := by
  cases a with
  | reset =>
    simp only [perform] at *
    cases h
    rfl
  | issue cw =>
    simp only [perform] at h ⊢
    split_ifs at h with hd
    rw [if_pos (show (s.withInputs ps).resetDone = true from hd)]
    exact execute_withInputs h ps

@[simp] theorem HostAction.sample_action (a : HostAction) : a.sample.action = some a := by cases a <;> rfl

@[simp] theorem runActions_nil (s : State) : runActions [] s = .next (s.withInputs []) := rfl

@[simp] theorem runActions_withInputs (as : List HostAction) (ps : List PortSample) (s : State) :
    runActions as (s.withInputs ps) = runActions as s := rfl

/-- A run takes its first action, and goes on from the state that action leaves. -/
theorem runActions_cons_of_next {a : HostAction} {s t : State} (h : perform a s = .next t) (as : List HostAction) :
    runActions (a :: as) s = runActions as t := by
  have hs : step (s.facing (a :: as)) = .next (t.facing as) := by
    rw [step_of_input (s := s.facing (a :: as)) rfl]
    simp only [takeSample, HostAction.sample_action]
    exact perform_withInputs h _
  rw [runActions, List.length_cons, run, hs]
  rfl

end Sys2Proof.Machine
end

