-- ==== Sys2Proof/Tests/Slice0.lean ====
section
/-! SUPPORT. The model's own tests. Expected values are the spec's (95_test_vectors.md, part and row in each comment)
or read off an encoding written out by hand from 30_encoding.md R44. Last, the witnesses: for each statement that has
hypotheses, a state and operands that meet them. -/

namespace Sys2Proof.Tests

open Sys2Proof Sys2Proof.Machine

/-! ### Helpers -/

/-- A reset engine with the key loaded. -/
def keyed (k : MasterKey) : State := State.reset.loadKey k

/-- A reset engine halted by a NoKey fault. -/
def halted : State := State.reset.recordFault .noKey

/-- What the host sees after an outcome, if there is a next state. -/
def seen : Result → Option Observation
  | .next t => some t.observe
  | _ => none

/-! ### Well-formedness: each check refuses an ill-formed term, and takes the boundary value beside it -/

theorem test_wf_refuses_wide_key : (Instr.ldkey 512).wellFormed = false := by decide
theorem test_wf_takes_widest_key : (Instr.ldkey 511).wellFormed = true := by decide
theorem test_wf_refuses_start_round_zero : (Instr.proc 0 0 1).wellFormed = false := by decide
theorem test_wf_refuses_end_round_zero : (Instr.proc 0 1 0).wellFormed = false := by decide
theorem test_wf_takes_rounds_one_and_fifteen : (Instr.proc 0 1 15).wellFormed = true := by decide

/-! ### Decoding: words written out bit by bit from R44 (B7) -/

theorem test_decode_ldkey : decode 0b000100000000000111111111 = .ok (.ldkey 0x1FF) := by rfl
theorem test_decode_ldkey_wide : decode 0b000100000000001000000000 = .ok (.ldkey 0x200) := by rfl
theorem test_decode_enc : decode 0b001000000000100010110101 = .ok (.enc 0x8B5) := by rfl
theorem test_decode_dec : decode 0b001100000000001101001010 = .ok (.dec 0x34A) := by rfl
theorem test_decode_proc : decode 0b010000010010100010110101 = .ok (.proc 0x8B5 1 2) := by rfl
theorem test_decode_proc_zero_rounds : decode 0x400000 = .ok (.proc 0 0 0) := by rfl
theorem test_decode_ldkey_with_er : decode 0x101000 = .error .reservedFieldNotZero := by rfl
theorem test_decode_enc_with_sr : decode 0x2F0000 = .error .reservedFieldNotZero := by rfl
theorem test_decode_zeros : decode 0x000000 = .error .undefinedOpcode := by rfl
theorem test_decode_opcode_five : decode 0x500000 = .error .undefinedOpcode := by rfl
theorem test_decodeTableWord_proc : decodeTableWord 24 0x41F8B5 = some (.proc 0x8B5 1 15) := by decide
theorem test_decodeTableWord_not_a_word : decodeTableWord 24 0x1100000 = none := by decide

/-! ### The function layer -/

/-- A1 and B1. -/
theorem test_expand : expand 8 = 20 ∧ expand 0b110101 = 0b11101001 ∧ expand 0b100110 = 0b10101010 := by decide
/-- B2: first, last and row-boundary addresses. -/
theorem test_rom : [0, 7, 8, 15].map (romRead .one) = [5, 0, 1, 3] ∧ [0, 7, 8, 15].map (romRead .two) = [4, 2, 5, 4] := by
  decide
/-- B3, rows 0x1C7 and 0x001. -/
theorem test_roundKey :
    (List.range 10).map (fun t => roundKey 0x1C7 ⟨t⟩) = [0xE3, 0xC7, 0x8F, 0x1F, 0x3F, 0x7E, 0xFC, 0xF8, 0xF1, 0xE3] ∧
      roundKey 0x001 ⟨8⟩ = 0x80 ∧ roundKey 0x001 ⟨0⟩ = 0x00 := by decide
/-- B4. -/
theorem test_roundFunction :
    roundFunction 38 0x65 = 4 ∧ roundFunction 53 0xE3 = 40 ∧ roundFunction 32 0x00 = 12 ∧ roundFunction 0 0xFF = 28 := by
  decide
/-- B6, the trace of `Process(0x34A, 0x1C7, 2, 1)`. -/
theorem test_ghostTrace :
    ghostTrace 0x1C7 (rounds roundTwo roundOne) (split 0x34A) =
      [⟨2, 0xC7, ⟨10, 53⟩⟩, ⟨1, 0xE3, ⟨53, 34⟩⟩] := by decide
/-- B6: one row for each direction, and the one-round pass at the highest index. -/
theorem test_process :
    process 0x8B5 0x1C7 ⟨2⟩ ⟨0⟩ = 0xB53 ∧ process 0x123 0x0B3 ⟨0⟩ ⟨1⟩ = 0xFFC ∧ process 0x8B5 0x1C7 ⟨14⟩ ⟨14⟩ = 0x035 := by
  decide

/-! ### One step of each command (B8) -/

theorem test_ldkey_loads : seen (exec (.ldkey 0x1C7) State.reset) = some ⟨0x01, none⟩ := by decide
theorem test_ldkey_range_before_locked : seen (exec (.ldkey 0xFFF) (keyed 0x1C7)) = some ⟨0x09, none⟩ := by decide
theorem test_enc_known_vector : seen (exec (.enc 0x8B5) (keyed 0x1C7)) = some ⟨0x03, some 0x34A⟩ := by decide
theorem test_enc_without_key : seen (exec (.enc 0x8B5) State.reset) = some ⟨0x0C, none⟩ := by decide
theorem test_dec_known_vector : seen (exec (.dec 0x34A) (keyed 0x1C7)) = some ⟨0x03, some 0x8B5⟩ := by decide
theorem test_dec_discarded_when_halted : exec (.dec 0x34A) halted = .next halted := rfl
theorem test_proc_three_rounds_down : seen (exec (.proc 0x8B5 3 1) (keyed 0x1C7)) = some ⟨0x03, some 0xB53⟩ := by decide
theorem test_proc_range_before_no_key : seen (exec (.proc 0 0 0) State.reset) = some ⟨0x08, none⟩ := by decide
/-- P6 run a. -/
theorem test_step_illegal_word : seen (step (State.reset.withFetchWord 24 0x000000)) = some ⟨0x04, none⟩ := by decide
theorem test_step_runs_presented_word :
    seen (step ((keyed 0x1C7).withFetchWord 24 0x4118B5)) = some ⟨0x03, some 0x2B5⟩ := by decide
theorem test_reset_leaves_halt : seen (runActions [.reset] halted) = some ⟨0x00, none⟩ := by decide
/-- R49: `EXPECT STATUS=0x03 DOUT=0x34A` after `ENC` of P1, and a line that does not assemble. -/
theorem test_assembler :
    assembleLine (.proc 0x8B5 1 2) = some (.act (.issue 0x4128B5)) ∧ assembleLine (.ldkey 4096) = none ∧
      (seen (exec (.enc 0x8B5) (keyed 0x1C7))).map (checkHolds 0x03 (some 0x34A)) = some true := by decide

/-! ### Witnesses -/

/-- `RoundKeyIsARotatedWindow`: bits 8 and 7 are in range; both forms of the window occur. -/
theorem witness_RoundKeyIsARotatedWindow : (8 : Nat) < 9 ∧ (7 : Nat) < 8 ∧ (9 : Nat) % 9 = 0 ∧ (8 : Nat) % 9 ≠ 0 := by
  decide
theorem witness_KeyScheduleHasPeriodNine :
    RoundIndex.i ⟨9⟩ = RoundIndex.i ⟨0⟩ + 9 ∧ (RoundIndex.i ⟨10⟩ - 1) % 9 = (RoundIndex.i ⟨1⟩ - 1) % 9 := by decide
theorem witness_RoundFunctionReadsBothRoms : (0xAA : RoundKeyWord) ^^^ expand 21 = 0x55 ^^^ expand 42 := by decide
/-- `RoundsRunFromStartToEnd`: equal rounds meet the rising clause, a start one above the end the falling one. -/
theorem witness_RoundsRunFromStartToEnd :
    RoundIndex.i ⟨2⟩ ≤ RoundIndex.i ⟨2⟩ ∧ RoundIndex.i ⟨2⟩ < RoundIndex.i ⟨3⟩ := by decide
theorem witness_EncryptAndDecryptUnrolled :
    (0xE3 : RoundKeyWord).toNat = (0x1C7 : MasterKey).toNat / 2 ∧ (0xC7 : RoundKeyWord).toNat = (0x1C7 : MasterKey).toNat % 256 ∧
      (34 : Half).toNat = (0x8B5 : Block).toNat / 64 ∧ (53 : Half).toNat = (0x8B5 : Block).toNat % 64 := by decide
theorem witness_PassHasPeriodNine : RoundIndex.i ⟨9⟩ = RoundIndex.i ⟨0⟩ + 9 ∧ RoundIndex.i ⟨10⟩ = RoundIndex.i ⟨1⟩ + 9 := by
  decide
/-- `DecodeFollowsTheOpcodeTable`: words that each row covers, and one that none covers. -/
theorem witness_DecodeFollowsTheOpcodeTable :
    [0x1001C7, 0x200FFF, 0x30034A, 0x4FFFFF, 0x101000].map (fun cw => (opcodeTable.filter fun row => row.covers cw).map (·.mnemonic)) =
      [["LDKEY"], ["ENC"], ["DEC"], ["PROC"], []] := by decide
/-- `WordClassesByNumber`: the words at both ends of the ranges, one after the other. -/
theorem witness_WordClassesByNumber :
    decode 0x100000 = .ok (.ldkey 0) ∧ decode 0x1001FF = .ok (.ldkey 511) ∧ decode 0x100200 = .ok (.ldkey 512) ∧
      decode 0x100FFF = .ok (.ldkey 4095) ∧ decode 0x200000 = .ok (.enc 0) ∧ decode 0x300FFF = .ok (.dec 4095) ∧
      decode 0x411000 = .ok (.proc 0 1 1) ∧ decode 0x4FFFFF = .ok (.proc 4095 15 15) ∧
      decode 0x401000 = .ok (.proc 0 0 1) ∧ decode 0x410000 = .ok (.proc 0 1 0) ∧
      decode 0x3010FF = .error .reservedFieldNotZero ∧ decode 0x0FFFFF = .error .undefinedOpcode :=
  ⟨rfl, rfl, rfl, rfl, rfl, rfl, rfl, rfl, rfl, rfl, rfl, rfl⟩
/-- `AssembledLinesDecodeToTheirCommands`: both sides of each bound. -/
theorem witness_AssembledLinesDecodeToTheirCommands :
    (assembleLine (.enc 4095)).isSome ∧ (assembleLine (.enc 4096)).isNone ∧ (assembleLine (.dec 4095)).isSome ∧
      (assembleLine (.ldkey 4095)).isSome ∧ (assembleLine (.proc 4095 15 15)).isSome ∧
      (assembleLine (.proc 0 16 0)).isNone ∧ (assembleLine (.proc 0 0 16)).isNone ∧
      (assembleLine (.word 0xFFFFFF)).isSome ∧ (assembleLine (.word 0x1000000)).isNone := by decide
/-- `LdkeyLoadsTheKeyOnce`: 511 and 512 on an engine that is not halted, keyed and not keyed; an unkeyed state past its
first Reset that meets the invariant. -/
theorem witness_LdkeyLoadsTheKeyOnce :
    State.reset.err = 0 ∧ State.reset.kv = false ∧ (keyed 0x1C7).err = 0 ∧ (keyed 0x1C7).kv = true ∧
      ¬512 ≤ (511 : BitVec 12).toNat ∧ 512 ≤ (512 : BitVec 12).toNat ∧ State.reset.Inv ∧ State.reset.resetDone = true :=
  ⟨rfl, rfl, rfl, rfl, by decide, by decide, fun _ => ⟨by decide, by decide⟩, rfl⟩
/-- `EncWritesTheEncryptedBlock`, `DecWritesTheDecryptedBlock`, `CommandsUndoEachOther`. -/
theorem witness_cipher_commands_complete : (keyed 0x1C7).err = 0 ∧ (keyed 0x1C7).kv = true ∧ (1 : BitVec 4) ≠ 0 ∧ (15 : BitVec 4) ≠ 0 := by
  decide
theorem witness_ProcWritesThePassResult :
    (keyed 0x1C7).err = 0 ∧ (keyed 0x1C7).kv = true ∧ (1 : BitVec 4).toNat = RoundIndex.i ⟨0⟩ ∧
      (15 : BitVec 4).toNat = RoundIndex.i ⟨14⟩ := by decide
theorem witness_CipherWithoutAKeyRaisesNoKey :
    State.reset.err = 0 ∧ State.reset.kv = false ∧ (1 : BitVec 4) ≠ 0 ∧ (2 : BitVec 4) ≠ 0 := by decide
theorem witness_ProcRefusesRoundZero : (keyed 0x1C7).err = 0 ∧ ((0 : BitVec 4) = 0 ∨ (2 : BitVec 4) = 0) := by decide
theorem witness_RangeViolationIffAnOperandIsIllegal :
    State.reset.err = 0 ∧ (Instr.ldkey 512).wellFormed = false ∧ (Instr.ldkey 511).wellFormed = true := by decide
theorem witness_HiddenRegistersFollowTheRounds : 2 ≤ roundCount roundOne roundTwo ∧ (rounds roundTwo roundOne)[1]? = some roundOne := by
  decide
/-- `FaultPriority`: a halted engine; and on one that is not, a word for each later clause, and a Reset sample. -/
theorem witness_FaultPriority :
    halted.err ≠ 0 ∧ State.reset.err = 0 ∧ (decode 0x150000).toOption = none ∧ (Instr.ldkey 0xFFF).wellFormed = false ∧
      (Instr.ldkey 0).wellFormed = true ∧ (keyed 0x1C7).kv = true ∧ (Instr.proc 0 1 1).wellFormed = true ∧
      State.reset.kv = false ∧ (PortSample.mk true true 0x2008B5).rst = true := by decide
/-- `FaultsArePrecise`: a command that changes `ERR`. -/
theorem witness_FaultsArePrecise :
    exec (.enc 0) State.reset = .next (State.reset.recordFault .noKey) ∧
      (State.reset.recordFault .noKey).err ≠ State.reset.err :=
  ⟨rfl, by decide⟩
/-- `HaltedEngineDiscardsCommands`, `OnlyResetLeavesTheHaltedState`. -/
theorem witness_halted : halted.err ≠ 0 ∧ halted.resetDone = true ∧ ∀ a ∈ [HostAction.issue 0, .issue 0x1001C7], a.isIssue = true := by
  decide
/-- `StepRunsTheDecodedCommand`, `StepRaisesIllegalCommand`. -/
theorem witness_presented_word :
    ((keyed 0x1C7).withFetchWord 24 0x2008B5).inputs = [⟨false, true, 0x2008B5⟩] ∧
      ((keyed 0x1C7).withFetchWord 24 0x2008B5).resetDone = true ∧ decode 0x2008B5 = .ok (.enc 0x8B5) ∧
      (State.reset.withFetchWord 24 0).inputs = [⟨false, true, 0⟩] ∧ State.reset.err = 0 ∧
      decode 0 = .error .undefinedOpcode :=
  ⟨rfl, rfl, rfl, rfl, rfl, rfl⟩
/-- `ResetOverridesAPresentedWord`, `NothingChangesWithoutAHostAction`: a sample with both ports set, one with neither,
and no sample. -/
theorem witness_port_samples :
    (halted.withInputs [⟨true, true, 0x2008B5⟩]).inputs = [⟨true, true, 0x2008B5⟩] ∧
      (halted.withInputs [⟨false, false, 0x2008B5⟩]).inputs = [⟨false, false, 0x2008B5⟩] ∧ State.reset.inputs = [] :=
  ⟨rfl, rfl, rfl⟩
theorem witness_NoCommandBeforeTheFirstReset :
    (State.powerUp [⟨false, true, 0x1001C7⟩]).resetDone = false ∧
      (State.powerUp [⟨false, true, 0x1001C7⟩]).inputs = [⟨false, true, 0x1001C7⟩] :=
  ⟨rfl, rfl⟩
/-- `ObserveShowsStatusAndResult`: a state with a result and one without. -/
theorem witness_ObserveShowsStatusAndResult : ((keyed 0x1C7).withResult 0x34A).dv = true ∧ State.reset.dv = false := ⟨rfl, rfl⟩
/-- `EveryStepCompletesAfterReset`, `StepKeepsInvariant`: a state that meets the invariant and takes a step. -/
theorem witness_StepKeepsInvariant :
    (State.reset.withFetchWord 24 0x1001C7).resetDone = true ∧ (State.reset.withFetchWord 24 0x1001C7).Inv ∧
      step (State.reset.withFetchWord 24 0x1001C7) = .next (keyed 0x1C7) :=
  ⟨rfl, fun _ => ⟨by decide, by decide⟩, rfl⟩
/-- `OnlyLdkeyAndResetWriteTheKey`: a step that changes `KEY` and `KV`. -/
theorem witness_OnlyLdkeyAndResetWriteTheKey :
    step (State.reset.withFetchWord 24 0x1001C7) = .next (keyed 0x1C7) ∧
      ((keyed 0x1C7).key ≠ (State.reset.withFetchWord 24 0x1001C7).key ∨
        (keyed 0x1C7).kv ≠ (State.reset.withFetchWord 24 0x1001C7).kv) :=
  ⟨rfl, by decide⟩
/-- `OnlyCipherCommandsAndResetWriteTheResult`: a step that changes `DOUT` and `DV`. -/
theorem witness_OnlyCipherCommandsAndResetWriteTheResult :
    ∃ t, step ((keyed 0x1C7).withFetchWord 24 0x2008B5) = .next t ∧
      (t.dout ≠ ((keyed 0x1C7).withFetchWord 24 0x2008B5).dout ∨ t.dv ≠ ((keyed 0x1C7).withFetchWord 24 0x2008B5).dv) :=
  ⟨_, rfl, .inr (by decide)⟩
/-- `ErrIsStickyUntilReset`: a step that changes `ERR`. -/
theorem witness_ErrIsStickyUntilReset :
    step (State.reset.withFetchWord 24 0x2008B5) = .next halted ∧
      halted.err ≠ (State.reset.withFetchWord 24 0x2008B5).err :=
  ⟨rfl, by decide⟩
theorem witness_KeyIsConstantBetweenResets :
    (keyed 0x1C7).resetDone = true ∧ (keyed 0x1C7).kv = true ∧
      ∀ a ∈ [HostAction.issue 0x1000B3, .issue 0x2008B5], a.isIssue = true := by decide
theorem witness_KeyedRunsNeverFault :
    (keyed 0x155).resetDone = true ∧ (keyed 0x155).err = 0 ∧ (keyed 0x155).kv = true ∧
      ∀ i ∈ [Instr.enc 0xABC, .dec 0x809] ++ [.proc 0x8B5 1 15], (cipherResult (keyed 0x155).key i).isSome = true := by
  refine ⟨rfl, rfl, rfl, ?_⟩
  simp [cipherResult, roundOperand, roundOfNat]
/-- `EqualVisibleStatesAreIndistinguishable`: two states that differ in what is hidden and in what is marked invalid. -/
theorem witness_EqualVisibleStatesAreIndistinguishable :
    let s := State.reset
    let t := { State.reset with key := 0x1C7, dout := 0x34A, l := 5, r := 6 }
    s.resetDone = true ∧ t.resetDone = true ∧ s.kv = t.kv ∧ s.dv = t.dv ∧ s.err = t.err ∧
      (s.dv = true → s.dout = t.dout) ∧ (s.kv = true → s.key = t.key) ∧ s ≠ t := by
  decide
theorem witness_ApiCallsAsCommandSequences :
    (1 : BitVec 4).toNat = RoundIndex.i ⟨0⟩ ∧ (9 : BitVec 4).toNat = RoundIndex.i ⟨8⟩ := by decide
theorem witness_RunsComposeInIssueOrder : ∃ t, runActions [.reset, .issue 0x1001C7] State.reset = .next t := ⟨_, rfl⟩

end Sys2Proof.Tests
end

section
/-! SUPPORT. The statements of 10_state.md: what one step can change, which registers a run keeps, the sequencer inside
a pass, and the engine as the host sees it (R25). -/

namespace Sys2Proof.Machine

/-! ### The registers after a cipher command -/

@[simp] theorem State.withResult_key (d : Block) (s : State) : (s.withResult d).key = s.key := rfl
@[simp] theorem State.withResult_kv (d : Block) (s : State) : (s.withResult d).kv = s.kv := rfl
@[simp] theorem State.withResult_dout (d : Block) (s : State) : (s.withResult d).dout = d := rfl
@[simp] theorem State.withResult_dv (d : Block) (s : State) : (s.withResult d).dv = true := rfl
@[simp] theorem State.withResult_err (d : Block) (s : State) : (s.withResult d).err = s.err := rfl
@[simp] theorem State.withResult_resetDone (d : Block) (s : State) : (s.withResult d).resetDone = s.resetDone := rfl

/-! ### What one step can do -/

/-- The codes that this hardware can record are 1 to 4: the fifth cause is raised by nothing (R84, R89). -/
theorem FaultCause.code_between_one_and_four {c : FaultCause} (h : c ≠ .tableFault) :
    1 ≤ c.code.toNat ∧ c.code.toNat ≤ 4 := by
  cases c with
  | tableFault => exact absurd rfl h
  | illegalCommand => decide
  | rangeViolation => decide
  | noKey => decide
  | keyLocked => decide

/-- The effects a step can have on the state, each with what must have stood in the state and on the ports. -/
inductive StepEffect (s : State) : State → Prop
  /-- At most the port samples move: nothing was asked, or a discarded word was presented. -/
  | idle (ps : List PortSample) : StepEffect s (s.withInputs ps)
  | reset (p : PortSample) (rest : List PortSample) (hin : s.inputs = p :: rest) (hrst : p.rst = true) :
      StepEffect s (s.withInputs rest).applyReset
  | fault (p : PortSample) (rest : List PortSample) (c : FaultCause) (hin : s.inputs = p :: rest)
      (hrst : p.rst = false) (herr : s.err = 0) (hc : c ≠ .tableFault) :
      StepEffect s ((s.withInputs rest).recordFault c)
  | keyLoad (p : PortSample) (rest : List PortSample) (data : BitVec 12) (k : MasterKey) (hin : s.inputs = p :: rest)
      (hvalid : p.cmdValid = true) (herr : s.err = 0) (hkv : s.kv = false) (hdec : decode p.cmd = .ok (.ldkey data))
      (hk : data.toNat = k.toNat) : StepEffect s ((s.withInputs rest).loadKey k)
  | cipher (p : PortSample) (rest : List PortSample) (i : Instr) (d : Block) (hin : s.inputs = p :: rest)
      (hvalid : p.cmdValid = true) (herr : s.err = 0) (hkv : s.kv = true) (hdec : decode p.cmd = .ok i)
      (hres : cipherResult s.key i = some d) : StepEffect s ((s.withInputs rest).withResult d)

/-- Every step with a next state has one of the listed effects. -/
theorem stepEffect_of_step {s t : State} (h : step s = .next t) : StepEffect s t := by
  rcases step_cases h with ⟨-, rfl⟩ | ⟨p, rest, hin, ⟨-, rfl⟩ | ⟨hrst, rfl⟩ | ⟨hrst, hvalid, -, hexec⟩⟩
  · exact .idle t.inputs
  · exact .idle rest
  · exact .reset p rest hin hrst
  · rcases execute_cases p.cmd (s.withInputs rest) with e | ⟨herr, c, hc, e⟩ | ⟨herr, hkv, data, k, hdec, hk, e⟩ |
      ⟨herr, hkv, i, d, hdec, hres, e⟩ <;> cases hexec.symm.trans e
    · exact .idle rest
    · exact .fault p rest c hin hrst herr hc
    · exact .keyLoad p rest data k hin hvalid herr hkv hdec hk
    · exact .cipher p rest i d hin hvalid herr hkv hdec hres

/-! ### The invariant -/

/-- Settles O40, one case per effect of a step: a fault records a code up to 4, and the only effect that sets `DV` asks
for a loaded key. -/
theorem stepKeepsInvariant : Obligations.StepKeepsInvariant := by
  intro s t hs hstep
  cases stepEffect_of_step hstep with
  | idle ps => exact hs
  | reset p rest hin hrst => exact fun _ => ⟨by simp, by simp⟩
  | fault p rest c hin hrst herr hc => exact fun hd => ⟨(FaultCause.code_between_one_and_four hc).2, (hs hd).2⟩
  | keyLoad p rest data k hin hvalid herr hkv hdec hk => exact fun hd => ⟨(hs hd).1, fun _ => rfl⟩
  | cipher p rest i d hin hvalid herr hkv hdec hres => exact fun hd => ⟨(hs hd).1, fun _ => hkv⟩

/-- Settles O41. -/
theorem resetSatisfiesInvariant : Obligations.ResetSatisfiesInvariant :=
  fun _ => ⟨by simp, by simp⟩

/-! ### What writes `KEY`, `DOUT` and `ERR` -/

/-- Settles O42: of the effects of a step only a Reset and a key load move `KEY` or `KV`. -/
theorem onlyLdkeyAndResetWriteTheKey : Obligations.OnlyLdkeyAndResetWriteTheKey := by
  intro s t hstep hne
  cases stepEffect_of_step hstep with
  | reset p rest hin hrst => exact ⟨p, rest, hin, .inl hrst⟩
  | keyLoad p rest data k hin hvalid herr hkv hdec hk =>
    exact ⟨p, rest, hin, .inr ⟨hvalid, herr, hkv, data, hdec, hk ▸ k.isLt, hk.symm, rfl⟩⟩
  | idle | fault | cipher => simp at hne

/-- Settles O43: of the effects of a step only a Reset and a cipher result move `DOUT` or `DV`. -/
theorem onlyCipherCommandsAndResetWriteTheResult : Obligations.OnlyCipherCommandsAndResetWriteTheResult := by
  intro s t hstep hne
  cases stepEffect_of_step hstep with
  | reset p rest hin hrst => exact ⟨p, rest, hin, .inl hrst⟩
  | cipher p rest i d hin hvalid herr hkv hdec hres =>
    exact ⟨p, rest, hin, .inr ⟨hvalid, herr, hkv, rfl, i, hdec, hres⟩⟩
  | idle | fault | keyLoad => simp at hne

/-- Settles O44: of the effects of a step only a Reset and a fault move `ERR`. -/
theorem errIsStickyUntilReset : Obligations.ErrIsStickyUntilReset := by
  intro s t hstep hne
  cases stepEffect_of_step hstep with
  | reset p rest hin hrst => exact ⟨p, rest, hin, .inl ⟨hrst, rfl⟩⟩
  | fault p rest c hin hrst herr hc =>
    obtain ⟨hlow, hhigh⟩ := FaultCause.code_between_one_and_four hc
    exact ⟨p, rest, hin, .inr ⟨hrst, herr, hlow, hhigh, rfl⟩⟩
  | idle | keyLoad | cipher => simp at hne

/-! ### The key over a run -/

/-- On a keyed engine an issued word has a next state, and leaves `KEY` and `KV` as they are (R12). -/
theorem perform_issue_keeps_key (cw : CommandWord) {s : State} (hd : s.resetDone = true) (hkv : s.kv = true) :
    ∃ t, perform (.issue cw) s = .next t ∧ t.resetDone = true ∧ t.key = s.key ∧ t.kv = true := by
  rw [perform, if_pos hd]
  rcases execute_cases cw s with e | ⟨-, c, -, e⟩ | ⟨-, hunkeyed, -⟩ | ⟨-, -, i, d, -, -, e⟩
  · exact ⟨s, e, hd, rfl, hkv⟩
  · exact ⟨_, e, hd, rfl, hkv⟩
  · simp [hkv] at hunkeyed
  · exact ⟨_, e, hd, rfl, hkv⟩

/-- Settles O45, by induction on the issued words. -/
theorem keyIsConstantBetweenResets : Obligations.KeyIsConstantBetweenResets := by
  intro as
  induction as with
  | nil => exact fun s _ hkv _ => ⟨_, runActions_nil s, rfl, hkv⟩
  | cons a as ih =>
    intro s hd hkv hissue
    obtain ⟨ha, has⟩ := List.forall_mem_cons.1 hissue
    cases a with
    | reset => simp [HostAction.isIssue] at ha
    | issue cw =>
      obtain ⟨t, hperf, hd', hkey, hkv'⟩ := perform_issue_keeps_key cw hd hkv
      obtain ⟨u, hrun, hu, hkvu⟩ := ih t hd' hkv' has
      exact ⟨u, (runActions_cons_of_next hperf as).trans hrun, hu.trans hkey, hkvu⟩

/-! ### The engine as the host sees it

R25 holds because every host action acts on the visible state alone: the functions below say how, and the lemma after
each ties it to the model. -/

/-- The action of a command on the visible state (R77 to R81, R86 to R88, R91). -/
def commandOnVisible (i : Instr) (v : VisibleState) : VisibleState :=
  if v.err ≠ 0 then v
  else if i.wellFormed = false then { v with err := FaultCause.rangeViolation.code }
  else if v.kv then
    match v.key.bind (cipherResult · i) with
    | some d => { v with dout := some d, dv := true }
    | none => { v with err := FaultCause.keyLocked.code }
  else
    match i with
    | .ldkey data => { v with key := keyOperand data, kv := true }
    | _ => { v with err := FaultCause.noKey.code }

/-- A command completes, and what it does to the visible state depends on the visible state alone. -/
theorem exec_visible (i : Instr) (s : State) :
    ∃ t, exec i s = .next t ∧ t.visible = commandOnVisible i s.visible ∧ t.resetDone = s.resetDone := by
  have verr : s.visible.err = s.err := rfl
  have vkv : s.visible.kv = s.kv := rfl
  have vkey : s.visible.key = if s.kv then some s.key else none := rfl
  rcases exec_cases i s with ⟨h, e⟩ | ⟨h, hwf, e⟩ | ⟨h, hwf, ⟨data, rfl⟩, hkv, e⟩ | ⟨h, hwf, hi, hkv, e⟩ |
    ⟨h, hkv, data, k, rfl, hk, hwf, e⟩ | ⟨h, hkv, hwf, -, d, hres, e⟩ <;> refine ⟨_, e, ?_, rfl⟩
  · exact (if_pos h).symm
  · simp [commandOnVisible, verr, h, hwf]
  · simp [commandOnVisible, verr, vkv, vkey, h, hwf, hkv, cipherResult]
  · cases i with
    | ldkey data => exact absurd ⟨data, rfl⟩ hi
    | enc | dec | proc => simp [commandOnVisible, verr, vkv, h, hwf, hkv]
  · simp [commandOnVisible, verr, vkv, h, hwf, hkv, (keyOperand_eq_some_iff data k).2 hk]
  · simp [commandOnVisible, verr, vkv, vkey, h, hwf, hkv, hres]

/-- The action of a host action on the visible state: a Reset clears it, an illegal word is discarded or recorded
(R85, R91), and any other word is its command. -/
def HostAction.onVisible (v : VisibleState) : HostAction → VisibleState
  | .reset => State.reset.visible
  | .issue cw =>
    match decode cw with
    | .error _ => if v.err ≠ 0 then v else { v with err := FaultCause.illegalCommand.code }
    | .ok i => commandOnVisible i v

/-- After the first Reset a host action completes, and what it does to the visible state depends on the visible state
alone. -/
theorem perform_visible (a : HostAction) {s : State} (hd : s.resetDone = true) :
    ∃ t, perform a s = .next t ∧ t.visible = a.onVisible s.visible ∧ t.resetDone = true := by
  cases a with
  | reset => exact ⟨_, rfl, s.visible_applyReset, rfl⟩
  | issue cw =>
    rw [perform, if_pos hd]
    cases hdec : decode cw with
    | ok i =>
      obtain ⟨t, hexec, hvis, hd'⟩ := exec_visible i s
      exact ⟨t, (execute_of_decode hdec s).trans hexec, by simp [HostAction.onVisible, hdec, hvis], hd'.trans hd⟩
    | error why =>
      rw [execute_of_illegal hdec]
      simp only [HostAction.onVisible, hdec]
      by_cases herr : s.err ≠ 0
      · exact ⟨s, if_pos herr, (if_pos herr).symm, hd⟩
      · exact ⟨s.recordFault .illegalCommand, if_neg herr, (if_neg herr).symm, hd⟩

/-- After the first Reset a run completes, and its visible end state is its actions folded over the visible state it
starts from. -/
theorem runActions_visible (as : List HostAction) {s : State} (hd : s.resetDone = true) :
    ∃ t, runActions as s = .next t ∧ t.visible = as.foldl HostAction.onVisible s.visible := by
  induction as generalizing s with
  | nil => exact ⟨_, runActions_nil s, rfl⟩
  | cons a as ih =>
    obtain ⟨t, hperf, hvis, hd'⟩ := perform_visible a hd
    obtain ⟨u, hrun, hvisu⟩ := ih hd'
    exact ⟨u, (runActions_cons_of_next hperf as).trans hrun, by rw [hvisu, hvis, List.foldl_cons]⟩

/-- Equal visible states show the host the same (R82). -/
theorem observe_eq_of_visible_eq {s t : State} (h : s.visible = t.visible) : s.observe = t.observe := by
  rw [s.observe_of_visible, t.observe_of_visible, h]

/-- Registers that agree wherever their flag marks them valid show the same. -/
theorem shown_congr {α : Type} {valid : Bool} {x y : α} (h : valid = true → x = y) :
    (if valid then some x else none) = if valid then some y else none :=
  ite_congr rfl (fun hv => congrArg some (h hv)) fun _ => rfl

/-- What Observe gives depends on the flags and a valid `DOUT` alone (R25, R82). -/
theorem observe_eq_of_registers {s t : State} (hkv : s.kv = t.kv) (hdv : s.dv = t.dv) (herr : s.err = t.err)
    (hdout : s.dv = true → s.dout = t.dout) : s.observe = t.observe := by
  rw [State.observe, State.observe, State.status, State.status, ← hkv, ← hdv, ← herr, shown_congr hdout]

/-- The conditions of R25 say that the visible states are equal. -/
theorem visible_eq_of_registers {s t : State} (hkv : s.kv = t.kv) (hdv : s.dv = t.dv) (herr : s.err = t.err)
    (hdout : s.dv = true → s.dout = t.dout) (hkey : s.kv = true → s.key = t.key) : s.visible = t.visible := by
  rw [State.visible, State.visible, ← hkv, ← hdv, ← herr, shown_congr hdout, shown_congr hkey]

/-- Settles O47: both runs fold the same actions over the same visible state. -/
theorem equalVisibleStatesAreIndistinguishable : Obligations.EqualVisibleStatesAreIndistinguishable := by
  refine ⟨fun s t => observe_eq_of_registers, fun as s t hs ht hkv hdv herr hdout hkey => ?_⟩
  obtain ⟨s', hruns, hviss⟩ := runActions_visible as hs
  obtain ⟨t', hrunt, hvist⟩ := runActions_visible as ht
  have hvis : s'.visible = t'.visible := by
    rw [hviss, hvist, visible_eq_of_registers hkv hdv herr hdout hkey]
  exact ⟨s', t', hruns, hrunt, observe_eq_of_visible_eq hvis, hvis⟩

/-! ### The sequencer inside a pass -/

/-- The number of the round that a pass from round `i` has come to after `n` rounds (R19, R69). -/
def indexAfter (d : Direction) (i n : Nat) : Nat :=
  match d with
  | .encryption => i + n
  | .decryption => i - n

theorem Sequencer.advance_eq (i : Nat) (d : Direction) : Sequencer.advance ⟨i, d⟩ = ⟨indexAfter d i 1, d⟩ := by
  cases d <;> rfl

theorem indexAfter_zero (d : Direction) (i : Nat) : indexAfter d i 0 = i := by
  cases d <;> rfl

theorem indexAfter_succ (d : Direction) (i n : Nat) :
    indexAfter d i (n + 1) = indexAfter d (indexAfter d i 1) n := by
  cases d <;> simp only [indexAfter] <;> omega

/-- A round on a sequencer that holds a round index advances the sequencer. -/
theorem State.runRound_seq {st : State} (h : 0 < st.seq.index) : st.runRound.seq = Sequencer.advance st.seq := by
  have hi : st.seq.index = RoundIndex.i ⟨st.seq.index - 1⟩ := by simp only [RoundIndex.i]; omega
  rw [State.runRound_eq hi]

/-- The sequencer after `n` rounds of the counted loop, none of which starts below round 1. -/
theorem State.runRounds_seq (n i : Nat) (d : Direction) (st : State) (hseq : st.seq = ⟨i, d⟩)
    (hlow : ∀ m < n, 0 < indexAfter d i m) : (State.runRounds n st).seq = ⟨indexAfter d i n, d⟩ := by
  induction n generalizing i st with
  | zero => rw [State.runRounds, hseq, indexAfter_zero]
  | succ n ih =>
    have hi : 0 < st.seq.index := by
      rw [hseq, ← indexAfter_zero d i]
      exact hlow 0 n.succ_pos
    have hnext : st.runRound.seq = ⟨indexAfter d i 1, d⟩ := by
      rw [State.runRound_seq hi, hseq, Sequencer.advance_eq]
    have hlow' : ∀ m < n, 0 < indexAfter d (indexAfter d i 1) m := fun m hm =>
      indexAfter_succ d i m ▸ hlow (m + 1) (Nat.succ_lt_succ hm)
    rw [State.runRounds, ih _ _ hnext hlow', ← indexAfter_succ]

/-- The `n`-th round of a pass has the number that the sequencer has come to, and it is a round index (R67, R69). -/
theorem nthRound_i {s e : RoundIndex} {n : Nat} (h : n < roundCount s e) :
    (nthRound (passDirection s e) s n).i = indexAfter (passDirection s e) s.i n := by
  simp only [roundCount] at h
  cases hd : passDirection s e <;> simp only [hd, nthRound, indexAfter, RoundIndex.i] at h ⊢ <;> omega

/-- After the last round the sequencer has gone one past the end round, in the direction of the pass (R19). -/
theorem indexAfter_roundCount (s e : RoundIndex) :
    indexAfter (passDirection s e) s.i (roundCount s e) = if s.i ≤ e.i then e.i + 1 else e.i - 1 := by
  by_cases h : s.i ≤ e.i <;> simp only [roundCount, passDirection, h, if_true, if_false, indexAfter] <;> omega

/-- The rounds of a pass never fall below round 1: a falling pass has at most as many as its start round's number. -/
theorem roundCount_le_of_decryption {s e : RoundIndex} (h : passDirection s e = .decryption) :
    roundCount s e ≤ s.i := by
  simp only [roundCount, h, RoundIndex.i]
  omega

/-- The halves after the first `n` rounds are those that the first `n` members of `Rounds(s, e)` give. -/
theorem halvesAfter_eq_foldl_take (k : MasterKey) {s e : RoundIndex} {n : Nat} (h : n ≤ roundCount s e) (p : Halves) :
    halvesAfter k (passDirection s e) s n p = ((rounds s e).take n).foldl (fun p i => roundStep k i p) p := by
  rw [halvesAfter, rounds, ← List.map_take, List.take_range, min_eq_left h]

/-- Settles O26: the halves are those of the counted loop, the sequencer's number is that of the round to come. -/
theorem hiddenRegistersFollowTheRounds : Obligations.HiddenRegistersFollowTheRounds := by
  intro v s e st n hn
  obtain ⟨q, hrun⟩ := State.runRounds_eq n s (passDirection s e) (st.startPass v s e) rfl fun hd =>
    hn.trans (roundCount_le_of_decryption hd)
  have hlow : ∀ m < n, 0 < indexAfter (passDirection s e) s.i m := fun m hm =>
    nthRound_i (hm.trans_le hn) ▸ Nat.succ_pos _
  have hseq : q = ⟨indexAfter (passDirection s e) s.i n, passDirection s e⟩ := by
    rw [← State.runRounds_seq n s.i (passDirection s e) (st.startPass v s e) rfl hlow, hrun]
  refine ⟨_, q, hrun, halvesAfter_eq_foldl_take st.key hn (split v), by rw [hseq], fun i hi => ?_, fun hlast => ?_⟩
  · obtain ⟨hlt, rfl⟩ : n < roundCount s e ∧ nthRound (passDirection s e) s n = i := by
      simpa [rounds, List.getElem?_eq_some_iff] using hi
    rw [hseq, nthRound_i hlt]
  · rw [hseq, hlast, indexAfter_roundCount]

/-! ### The ports and the reset state -/

/-- Settles O31. -/
theorem stepRunsTheDecodedCommand : Obligations.StepRunsTheDecodedCommand := by
  intro s cw i rest hd hin hdec
  calc step s = perform (.issue cw) (s.withInputs rest) := step_of_input hin
    _ = execute cw (s.withInputs rest) := if_pos hd
    _ = exec i (s.withInputs rest) := execute_of_decode hdec _

/-- Settles O37. -/
theorem resetStateHasClearedFlags : Obligations.ResetStateHasClearedFlags :=
  ⟨State.reset_kv, State.reset_dv, State.reset_err, rfl, State.cmdReady_of_resetDone rfl, rfl⟩

/-- The three flags stand side by side in the status word, without a carry (R17). -/
theorem State.status_toNat (s : State) : s.status.toNat = s.err.toNat * 4 + s.dv.toNat * 2 + s.kv.toNat := by
  have := s.err.isLt
  have := s.dv.toNat_lt
  have := s.kv.toNat_lt
  simp only [State.status, BitVec.toNat_ofNat, Nat.shiftLeft_eq]
  omega

/-- Bits 7:5 of the status word are 0 (R17). -/
theorem State.status_getLsbD_of_five_le (s : State) {j : Nat} (h : 5 ≤ j) : s.status.getLsbD j = false := by
  have hlt : s.status.toNat < 2 ^ 5 := by
    have := s.err.isLt
    have := s.dv.toNat_lt
    have := s.kv.toNat_lt
    rw [s.status_toNat]
    omega
  exact Nat.testBit_lt_two_pow (hlt.trans_le (Nat.pow_le_pow_right (by decide) h))

/-- Settles O38. -/
theorem observeShowsStatusAndResult : Obligations.ObserveShowsStatusAndResult := by
  intro s
  refine ⟨s.status_toNat, s.status_getLsbD_of_five_le (by decide), s.status_getLsbD_of_five_le (by decide),
    s.status_getLsbD_of_five_le (by decide), rfl, fun hdv => ⟨if_pos hdv, if_pos hdv⟩, fun hdv => ?_⟩
  simp [State.observe, hdv]

end Sys2Proof.Machine
end

section
/-! SUPPORT. The statements of 20_memory.md: what the ROMs hold and how an address is formed (R28, R29), and the order
in which the host's actions take effect (R37). -/

namespace Sys2Proof.Machine

/-! ### The order of the host's actions -/

/-- The first step of a machine that faces a list of actions performs the first of them, with the others to come. -/
theorem step_facing_cons (a : HostAction) (as : List HostAction) (s : State) :
    step (s.facing (a :: as)) = perform a (s.facing as) := by
  rw [step_of_input (s.facing_inputs (a :: as)), takeSample, HostAction.sample_action]
  rfl

/-- A run with an end state has performed its first action, and gone on from the state that action left: the converse
of `runActions_cons_of_next`. -/
theorem perform_of_runActions_cons {a : HostAction} {as : List HostAction} {s t : State}
    (h : runActions (a :: as) s = .next t) : ∃ u, perform a s = .next u ∧ runActions as u = .next t := by
  have hstep := step_facing_cons a as s
  cases hperf : perform a (s.facing as) with
  | next u =>
    have hfirst : perform a s = .next (u.withInputs s.inputs) := perform_withInputs hperf s.inputs
    exact ⟨_, hfirst, (runActions_cons_of_next hfirst as).symm.trans h⟩
  | fault | refused => simp [runActions, run, hstep, hperf] at h

/-- Settles O49, by induction on the first sequence: each action takes effect in the state the one before left, and an
empty sequence leaves all but the port samples, which a run sets itself. -/
theorem runsComposeInIssueOrder : Obligations.RunsComposeInIssueOrder := by
  intro as bs
  induction as with
  | nil =>
    intro s t h
    rw [runActions_nil] at h
    cases h
    exact (runActions_withInputs bs [] s).symm
  | cons a as ih =>
    intro s t h
    obtain ⟨u, hfirst, hrest⟩ := perform_of_runActions_cons h
    calc runActions (a :: (as ++ bs)) s = runActions (as ++ bs) u := runActions_cons_of_next hfirst _
      _ = runActions bs t := ih u t hrest

/-- Settles O35. -/
theorem nothingChangesWithoutAHostAction : Obligations.NothingChangesWithoutAHostAction := by
  refine ⟨fun s cw rest hin => ?_, fun s => step_of_no_input⟩
  have hidle : (⟨false, false, cw⟩ : PortSample).action = none := rfl
  rw [step_of_input hin, takeSample, hidle]

/-! ### The ROMs -/

/-- A ROM read gives the word listed at the address, and every address has one (R29). -/
theorem some_romRead (b : Box) (a : SboxAddress) : some (romRead b a) = (romTable b).toList[a.toNat]? := by
  rw [Vector.getElem?_toList, Vector.getElem?_eq_getElem a.isLt]
  rfl

/-- A ROM lists its S-box row by row (R28). -/
theorem romTable_eq_flatten (b : Box) : romTable b = (sboxTable b).flatten := by
  cases b <;> simp [romTable, sboxTable]

/-- The row of an address is its quotient by 8 (R28). -/
theorem addressRow_toNat (a : SboxAddress) : (addressRow a).toNat = a.toNat / 8 := by
  have := a.isLt
  simp only [addressRow, BitVec.extractLsb'_toNat, Nat.shiftRight_eq_div_pow]
  omega

/-- The column of an address is its remainder by 8 (R28). -/
theorem addressCol_toNat (a : SboxAddress) : (addressCol a).toNat = a.toNat % 8 := by
  simp [addressCol]

/-- The word at an address is the S-box entry at the address's row and column: in the rows laid end to end, position
`8 * row + col` is column `col` of row `row` (R28, R29). -/
theorem romRead_eq_sLookup (b : Box) (a : SboxAddress) : romRead b a = sLookup b (addressRow a) (addressCol a) := by
  have hflat : romRead b a = (sboxTable b).flatten[a.toNat]'a.isLt := by
    rw [romRead, romTable_eq_flatten]
    rfl
  rw [hflat, Vector.getElem_flatten]
  simp only [sLookup, Vector.get_eq_getElem, BitVec.val_toFin, addressRow_toNat, addressCol_toNat]

/-- Settles O2. -/
theorem romReadIsTheListedWord : Obligations.RomReadIsTheListedWord :=
  ⟨some_romRead .one, some_romRead .two, romRead_eq_sLookup⟩

end Sys2Proof.Machine
end

section
/-! SUPPORT. The statements of 30_encoding.md: the fields of a word (R43), the decoder and the opcode table (R44, R48),
the classes of words (R46), the assembler's lines (R49), and what the encoding means for the commands: the range check
(R45) and SD's API calls. -/

namespace Sys2Proof

/-! ### The fields of a word -/

/-- A word is the word of four fields exactly when it holds them: packing and taking apart are inverse (R43). -/
theorem eq_packFields_iff (cw : CommandWord) (op sr er : Nibble) (data : BitVec 12) :
    cw = packFields op sr er data ↔ opField cw = op ∧ srField cw = sr ∧ erField cw = er ∧ dataField cw = data := by
  have := cw.isLt
  have := op.isLt
  have := sr.isLt
  have := er.isLt
  have := data.isLt
  simp only [← BitVec.toNat_inj, packFields_toNat, opField_toNat, srField_toNat, erField_toNat, dataField_toNat]
  omega

/-- The opcode is the word's number without its lower twenty bits (R43). -/
theorem opField_eq_iff (cw : CommandWord) (op : Nibble) : opField cw = op ↔ cw.toNat / 2 ^ 20 = op.toNat := by
  have := cw.isLt
  rw [← BitVec.toNat_inj, opField_toNat]
  omega

/-- A word whose reserved fields are 0 by its number: its upper half is the opcode and eight zeros (R43). -/
theorem eq_packFields_zero_iff (cw : CommandWord) (op : Nibble) (data : BitVec 12) :
    cw = packFields op 0 0 data ↔ cw.toNat / 2 ^ 12 = op.toNat * 2 ^ 8 ∧ dataField cw = data := by
  have := data.isLt
  simp only [← BitVec.toNat_inj, packFields_toNat, dataField_toNat, BitVec.ofNat_eq_ofNat, BitVec.toNat_ofNat]
  omega

/-- The operands of a line stand in the word's number at their fields' places when they fit (R43, R49). -/
theorem packFields_ofNat {sr er data : Nat} (op : Nibble) (hs : sr ≤ 15) (he : er ≤ 15) (hd : data ≤ 4095) :
    packFields op (BitVec.ofNat 4 sr) (BitVec.ofNat 4 er) (BitVec.ofNat 12 data) =
      BitVec.ofNat 24 ((op.toNat <<< 20) + (sr <<< 16) + (er <<< 12) + data) := by
  have hs' : sr % 2 ^ 4 = sr := Nat.mod_eq_of_lt (by omega)
  have he' : er % 2 ^ 4 = er := Nat.mod_eq_of_lt (by omega)
  have hd' : data % 2 ^ 12 = data := Nat.mod_eq_of_lt (by omega)
  simp only [packFields, BitVec.toNat_ofNat, hs', he', hd']

/-! ### Decode and encode -/

/-- A word decodes to a command exactly when it is that command's word (R43, R48). -/
theorem decode_eq_ok_iff (cw : CommandWord) (i : Instr) : decode cw = .ok i ↔ cw = encode i := by
  constructor
  · intro h
    unfold decode at h
    split_ifs at h with hproc hop hzero hldkey henc
    · cases h
      exact (eq_packFields_iff ..).2 ⟨hproc, rfl, rfl, rfl⟩
    · cases h
      exact (eq_packFields_iff ..).2 ⟨hldkey, hzero.1, hzero.2, rfl⟩
    · cases h
      exact (eq_packFields_iff ..).2 ⟨henc, hzero.1, hzero.2, rfl⟩
    · cases h
      have hdec : opField cw = 3 := (hop.resolve_left hldkey).resolve_left henc
      exact (eq_packFields_iff ..).2 ⟨hdec, hzero.1, hzero.2, rfl⟩
  · intro h
    cases i with
    | ldkey | enc | dec | proc =>
      obtain ⟨hop, hsr, her, hdata⟩ := (eq_packFields_iff ..).1 h
      simp [decode, hop, hsr, her, hdata]

/-- Settles O12. -/
theorem decodeIsTheInverseOfEncode : Obligations.DecodeIsTheInverseOfEncode :=
  decode_eq_ok_iff

@[simp] theorem decode_encode (i : Instr) : decode (encode i) = .ok i :=
  (decode_eq_ok_iff _ i).2 rfl

/-- Settles O15. -/
theorem sampleWordsDecode : Obligations.SampleWordsDecode :=
  ⟨rfl, rfl, rfl, rfl, rfl, rfl⟩

/-! ### The opcode table -/

/-- Under the mask of the three upper fields a word is an opcode alone exactly when it holds that opcode over reserved
fields of 0 (R44). -/
theorem and_mask_data_eq_iff (cw : CommandWord) (op : Nibble) :
    cw &&& 0xFFF000 = packFields op 0 0 0 ↔ ∃ data, cw = packFields op 0 0 data := by
  have hfields : (∃ data, cw = packFields op 0 0 data) ↔ cw.toNat / 2 ^ 12 = op.toNat * 2 ^ 8 := by
    simp only [eq_packFields_zero_iff, exists_and_left, exists_eq', and_true]
  rw [hfields, ← BitVec.toNat_inj, Laws.and_mask_data_toNat, packFields_toNat]
  simp only [BitVec.ofNat_eq_ofNat, BitVec.toNat_ofNat]
  omega

/-- Under the mask of the opcode a word is an opcode alone exactly when it holds that opcode (R44). -/
theorem and_mask_op_eq_iff (cw : CommandWord) (op : Nibble) :
    cw &&& 0xF00000 = packFields op 0 0 0 ↔ ∃ data sr er, cw = packFields op sr er data := by
  have hfields : (∃ data sr er, cw = packFields op sr er data) ↔ cw.toNat / 2 ^ 20 = op.toNat := by
    simp only [eq_packFields_iff, opField_eq_iff, exists_and_left, exists_eq_left', exists_eq',
      and_true]
  rw [hfields, ← BitVec.toNat_inj, Laws.and_mask_op_toNat, packFields_toNat]
  simp only [BitVec.ofNat_eq_ofNat, BitVec.toNat_ofNat]
  omega

theorem ldkeyRow_covers_iff (cw : CommandWord) : ldkeyRow.covers cw = true ↔ ∃ k, decode cw = .ok (.ldkey k) := by
  simp only [decode_eq_ok_iff]
  exact beq_iff_eq.trans (and_mask_data_eq_iff cw 1)

theorem encRow_covers_iff (cw : CommandWord) : encRow.covers cw = true ↔ ∃ v, decode cw = .ok (.enc v) := by
  simp only [decode_eq_ok_iff]
  exact beq_iff_eq.trans (and_mask_data_eq_iff cw 2)

theorem decRow_covers_iff (cw : CommandWord) : decRow.covers cw = true ↔ ∃ v, decode cw = .ok (.dec v) := by
  simp only [decode_eq_ok_iff]
  exact beq_iff_eq.trans (and_mask_data_eq_iff cw 3)

theorem procRow_covers_iff (cw : CommandWord) :
    procRow.covers cw = true ↔ ∃ v s e, decode cw = .ok (.proc v s e) := by
  simp only [decode_eq_ok_iff]
  exact beq_iff_eq.trans (and_mask_op_eq_iff cw 4)

theorem row_mem_opcodeTable (i : Instr) : i.row ∈ opcodeTable := by
  cases i <;> simp [Instr.row, opcodeTable]

/-- A row of the table covers exactly the words of its own commands (R44). -/
theorem covers_iff_decode {row : OpcodeRow} (hrow : row ∈ opcodeTable) (cw : CommandWord) :
    row.covers cw = true ↔ ∃ i, decode cw = .ok i ∧ i.row = row := by
  constructor
  · intro h
    simp only [opcodeTable, List.mem_cons, List.not_mem_nil, or_false] at hrow
    obtain rfl | rfl | rfl | rfl := hrow
    · obtain ⟨k, hk⟩ := (ldkeyRow_covers_iff cw).1 h
      exact ⟨_, hk, rfl⟩
    · obtain ⟨v, hv⟩ := (encRow_covers_iff cw).1 h
      exact ⟨_, hv, rfl⟩
    · obtain ⟨v, hv⟩ := (decRow_covers_iff cw).1 h
      exact ⟨_, hv, rfl⟩
    · obtain ⟨v, s, e, hv⟩ := (procRow_covers_iff cw).1 h
      exact ⟨_, hv, rfl⟩
  · rintro ⟨i, hi, rfl⟩
    rw [(decode_eq_ok_iff cw i).1 hi]
    cases i with
    | ldkey data => exact Laws.RowCovers.ldkey data
    | enc data => exact Laws.RowCovers.enc data
    | dec data => exact Laws.RowCovers.dec data
    | proc data sr er => exact Laws.RowCovers.proc data sr er

/-- A word that two rows cover would decode to two commands. -/
theorem row_eq_of_covers {x y : OpcodeRow} (hx : x ∈ opcodeTable) (hy : y ∈ opcodeTable) {cw : CommandWord}
    (hxc : x.covers cw = true) (hyc : y.covers cw = true) : x = y := by
  obtain ⟨i, hi, rfl⟩ := (covers_iff_decode hx cw).1 hxc
  obtain ⟨j, hj, rfl⟩ := (covers_iff_decode hy cw).1 hyc
  cases hi.symm.trans hj
  rfl

/-- A word is illegal exactly when no row covers it. -/
theorem decode_error_iff_no_row (cw : CommandWord) :
    (∃ why, decode cw = .error why) ↔ ∀ x ∈ opcodeTable, x.covers cw = false := by
  cases hd : decode cw with
  | error why =>
    refine iff_of_true ⟨why, rfl⟩ fun x hx => ?_
    rw [← Bool.not_eq_true, covers_iff_decode hx, hd]
    simp
  | ok i =>
    have hcov : i.row.covers cw = true := (covers_iff_decode (row_mem_opcodeTable i) cw).2 ⟨i, hd, rfl⟩
    refine iff_of_false (by simp) fun h => ?_
    simp [h _ (row_mem_opcodeTable i)] at hcov

/-- Settles O13: every clause goes through what the rows cover. -/
theorem decodeFollowsTheOpcodeTable : Obligations.DecodeFollowsTheOpcodeTable :=
  ⟨fun cw => beq_iff_eq.symm.trans (ldkeyRow_covers_iff cw), fun cw => beq_iff_eq.symm.trans (encRow_covers_iff cw),
    fun cw => beq_iff_eq.symm.trans (decRow_covers_iff cw), fun cw => beq_iff_eq.symm.trans (procRow_covers_iff cw),
    fun _ _ hx _ hy => row_eq_of_covers hx hy, decode_error_iff_no_row⟩

/-! ### The classes of words -/

/-- The words with a reserved field not 0 (R46). -/
theorem decode_eq_reservedFieldNotZero_iff (cw : CommandWord) :
    decode cw = .error .reservedFieldNotZero ↔
      (opField cw = 1 ∨ opField cw = 2 ∨ opField cw = 3) ∧ ¬(srField cw = 0 ∧ erField cw = 0) := by
  unfold decode
  split_ifs with hproc hop hzero
  · simp [hproc]
  · simp [hzero]
  · simp [hzero]
  · simp [hzero]
  · exact iff_of_true rfl ⟨hop, hzero⟩
  · exact iff_of_false (by simp) fun h => hop h.1

/-- The words with an undefined opcode (R46). -/
theorem decode_eq_undefinedOpcode_iff (cw : CommandWord) :
    decode cw = .error .undefinedOpcode ↔
      opField cw ≠ 4 ∧ ¬(opField cw = 1 ∨ opField cw = 2 ∨ opField cw = 3) := by
  unfold decode
  split_ifs with hproc hop
  · exact iff_of_false (by simp) fun h => h.1 hproc
  · exact iff_of_false (by simp) fun h => h.2 hop
  · exact iff_of_false (by simp) fun h => h.2 hop
  · exact iff_of_false (by simp) fun h => h.2 hop
  · exact iff_of_false (by simp) fun h => h.2 hop
  · exact iff_of_true rfl ⟨hproc, hop⟩

/-- The two reserved fields side by side are the eight bits above `DATA` (R43). -/
theorem reservedFields_eq_zero_iff (cw : CommandWord) :
    srField cw = 0 ∧ erField cw = 0 ↔ cw.toNat / 2 ^ 12 % 256 = 0 := by
  simp only [← BitVec.toNat_inj, srField_toNat, erField_toNat, BitVec.ofNat_eq_ofNat,
    BitVec.toNat_ofNat]
  omega

/-- A key operand is legal below 512 (R45). -/
theorem wellFormed_ldkey_iff (data : BitVec 12) : (Instr.ldkey data).wellFormed = true ↔ data.toNat < 512 :=
  decide_eq_true_iff

/-- Round operands are legal when neither is 0 (R45). -/
theorem wellFormed_proc_iff (data : BitVec 12) (sr er : Nibble) :
    (Instr.proc data sr er).wellFormed = true ↔ sr.toNat ≠ 0 ∧ er.toNat ≠ 0 := by
  simp only [Instr.wellFormed, legalRoundField, Bool.and_eq_true, decide_eq_true_iff, Nat.one_le_iff_ne_zero]

theorem decode_eq_ldkey_iff (cw : CommandWord) (data : BitVec 12) :
    decode cw = .ok (.ldkey data) ↔ cw.toNat / 2 ^ 12 = 0x100 ∧ dataField cw = data :=
  (decode_eq_ok_iff cw _).trans (eq_packFields_zero_iff cw 1 data)

theorem decode_eq_enc_iff (cw : CommandWord) (data : BitVec 12) :
    decode cw = .ok (.enc data) ↔ cw.toNat / 2 ^ 12 = 0x200 ∧ dataField cw = data :=
  (decode_eq_ok_iff cw _).trans (eq_packFields_zero_iff cw 2 data)

theorem decode_eq_dec_iff (cw : CommandWord) (data : BitVec 12) :
    decode cw = .ok (.dec data) ↔ cw.toNat / 2 ^ 12 = 0x300 ∧ dataField cw = data :=
  (decode_eq_ok_iff cw _).trans (eq_packFields_zero_iff cw 3 data)

theorem decode_eq_proc_iff (cw : CommandWord) (data : BitVec 12) (sr er : Nibble) :
    decode cw = .ok (.proc data sr er) ↔
      cw.toNat / 2 ^ 20 = 4 ∧ srField cw = sr ∧ erField cw = er ∧ dataField cw = data := by
  rw [decode_eq_ok_iff, encode, eq_packFields_iff, opField_eq_iff]
  rfl

/-- The words that decode to a key load whose operand has a property are those of its opcode whose `DATA` has it. -/
theorem exists_decode_ldkey_iff (cw : CommandWord) (p : BitVec 12 → Prop) :
    (∃ k, decode cw = .ok (.ldkey k) ∧ p k) ↔ cw.toNat / 2 ^ 12 = 0x100 ∧ p (dataField cw) := by
  simp only [decode_eq_ldkey_iff, and_assoc, exists_and_left, exists_eq_left']

/-- The words that decode to a pass whose rounds have a property are those of its opcode whose fields have it. -/
theorem exists_decode_proc_iff (cw : CommandWord) (p : BitVec 12 → Nibble → Nibble → Prop) :
    (∃ v s e, decode cw = .ok (.proc v s e) ∧ p v s e) ↔
      cw.toNat / 2 ^ 20 = 4 ∧ p (dataField cw) (srField cw) (erField cw) := by
  simp only [decode_eq_proc_iff, and_assoc, exists_and_left, exists_eq_left']

/-- Settles O14: each class is a condition on the fields, and so on the word's number. -/
theorem wordClassesByNumber : Obligations.WordClassesByNumber := by
  intro cw
  refine ⟨?ldkeyLegal, ?ldkeyWide, ?enc, ?dec, ?procLegal, ?procZero, ?reserved, ?undefined⟩
  case ldkeyLegal =>
    rw [exists_decode_ldkey_iff, wellFormed_ldkey_iff, dataField_toNat]
    omega
  case ldkeyWide =>
    rw [exists_decode_ldkey_iff, ← Bool.not_eq_true, wellFormed_ldkey_iff, dataField_toNat]
    omega
  case enc =>
    simp only [decode_eq_enc_iff, exists_and_left, exists_eq', and_true]
    omega
  case dec =>
    simp only [decode_eq_dec_iff, exists_and_left, exists_eq', and_true]
    omega
  case procLegal => rw [exists_decode_proc_iff, wellFormed_proc_iff, srField_toNat, erField_toNat]
  case procZero =>
    rw [exists_decode_proc_iff, ← Bool.not_eq_true, wellFormed_proc_iff, srField_toNat, erField_toNat]
    omega
  case reserved =>
    rw [decode_eq_reservedFieldNotZero_iff, reservedFields_eq_zero_iff]
    simp only [opField_eq_iff]
    rfl
  case undefined =>
    rw [decode_eq_undefinedOpcode_iff]
    simp only [ne_eq, opField_eq_iff, BitVec.ofNat_eq_ofNat, BitVec.toNat_ofNat]
    omega

namespace Machine

/-! ### The assembler's lines -/

/-- A line whose operands fit exactly where `p` holds, and whose formula is then the word of the command `i`, assembles
to a word that decodes to `i`, and else does not assemble (R49). -/
theorem wordIf_decodes {fits : Bool} {w : Nat} {i : Instr} {p : Prop} [Decidable p] (hfits : fits = true ↔ p)
    (hword : p → encode i = BitVec.ofNat 24 w) :
    if p then ∃ cw, wordIf fits w = some (.act (.issue cw)) ∧ decode cw = .ok i else wordIf fits w = none := by
  split_ifs with hp
  · exact ⟨BitVec.ofNat 24 w, if_pos (hfits.2 hp), hword hp ▸ decode_encode i⟩
  · exact if_neg (mt hfits.1 hp)

/-- Settles O16: the formula of each line packs its operands, which keep their values where they fit. -/
theorem assembledLinesDecodeToTheirCommands : Obligations.AssembledLinesDecodeToTheirCommands := by
  refine ⟨fun k => ?_, fun v => ?_, fun v => ?_, fun v s e => ?_, fun w => ?_⟩
  · exact wordIf_decodes decide_eq_true_iff fun hk => packFields_ofNat (sr := 0) (er := 0) 1 (by decide) (by decide) hk
  · exact wordIf_decodes decide_eq_true_iff fun hv => packFields_ofNat (sr := 0) (er := 0) 2 (by decide) (by decide) hv
  · exact wordIf_decodes decide_eq_true_iff fun hv => packFields_ofNat (sr := 0) (er := 0) 3 (by decide) (by decide) hv
  · exact wordIf_decodes (by simp [and_assoc]) fun ⟨hv, hs, he⟩ => packFields_ofNat 4 hs he hv
  · split_ifs with hw
    · exact ⟨BitVec.ofNat 24 w, if_pos (decide_eq_true hw), Nat.mod_eq_of_lt hw⟩
    · exact if_neg (mt of_decide_eq_true hw)

/-! ### The range check -/

/-- A command that leaves a code other than RangeViolation's has not raised one. -/
theorem exec_ne_rangeViolation {i : Instr} {s t : State} (e : exec i s = .next t) (h : t.err ≠ 2) :
    exec i s ≠ .next { s with err := 2 } := by
  intro hrange
  cases e.symm.trans hrange
  exact h rfl

/-- Settles O24: of the things a command can do on a running engine only one records RangeViolation, and it alone asks
for an illegal operand. -/
theorem rangeViolationIffAnOperandIsIllegal : Obligations.RangeViolationIffAnOperandIsIllegal := by
  intro i s herr
  rcases exec_cases i s with ⟨h, -⟩ | ⟨-, hwf, e⟩ | ⟨-, hwf, -, -, e⟩ | ⟨-, hwf, -, -, e⟩ |
    ⟨-, -, data, k, -, -, hwf, e⟩ | ⟨-, -, hwf, -, d, -, e⟩
  · exact absurd herr h
  · exact iff_of_true e hwf
  all_goals exact iff_of_false (exec_ne_rangeViolation e (by simp [FaultCause.code, herr])) (by simp [hwf])

/-! ### SD's API calls -/

/-- After the first Reset a command's word is executed as the command. -/
theorem perform_issueOf {s : State} (hd : s.resetDone = true) (i : Instr) : perform (issueOf i) s = exec i s :=
  (if_pos hd).trans (execute_of_decode (decode_encode i) s)

/-- A legal key load on a running engine without a key loads the key (R78). -/
theorem exec_ldkey_of_unkeyed {s : State} (herr : s.err = 0) (hkv : s.kv = false) {data : BitVec 12} {k : MasterKey}
    (hk : data.toNat = k.toNat) : exec (.ldkey data) s = .next (s.loadKey k) := by
  simp [exec, execLdkey, unlessHalted_of_running herr, (keyOperand_eq_some_iff data k).2 hk, hkv]

/-- A command with a cipher result has legal operands (R45). -/
theorem wellFormed_of_cipherResult {k : MasterKey} {i : Instr} {d : Block} (h : cipherResult k i = some d) :
    i.wellFormed = true := by
  cases i with
  | ldkey data => simp [cipherResult] at h
  | enc | dec => rfl
  | proc v sr er =>
    cases hs : roundOperand sr with
    | none => simp [cipherResult, hs] at h
    | some a =>
      cases he : roundOperand er with
      | none => simp [cipherResult, hs, he] at h
      | some b =>
        rw [roundOperand_eq_some_iff] at hs he
        rw [wellFormed_proc_iff, hs, he]
        exact ⟨a.t.succ_ne_zero, b.t.succ_ne_zero⟩

/-- A cipher command with legal operands on a running engine with a key writes its result (R79 to R81). -/
theorem exec_cipher_of_keyed {s : State} (herr : s.err = 0) (hkv : s.kv = true) {i : Instr} {d : Block}
    (hres : cipherResult s.key i = some d) : exec i s = .next (s.withResult d) := by
  have hwf := wellFormed_of_cipherResult hres
  rcases exec_cases i s with ⟨h, -⟩ | ⟨-, h, -⟩ | ⟨-, -, ⟨data, rfl⟩, -⟩ | ⟨-, -, -, h, -⟩ | ⟨-, h, -⟩ |
    ⟨-, -, -, -, d', hd', e⟩
  · exact absurd herr h
  · simp [hwf] at h
  · simp [cipherResult] at hres
  · simp [hkv] at h
  · simp [hkv] at h
  · cases hres.symm.trans hd'
    exact e

/-- A master key widened to `DATA` keeps its value (R45). -/
theorem ofNat_masterKey_toNat (k : MasterKey) : (BitVec.ofNat 12 k.toNat).toNat = k.toNat :=
  Nat.mod_eq_of_lt (k.isLt.trans (by decide))

/-- Reset, one key load and one cipher command leave the command's result, from any state (R49, R74). -/
theorem runActions_apiCall (s : State) (k : MasterKey) {i : Instr} {d : Block} (hres : cipherResult k i = some d) :
    ∃ t, runActions [.reset, issueOf (.ldkey (BitVec.ofNat 12 k.toNat)), issueOf i] s = .next t ∧
      t.observe = ⟨0x03, some d⟩ := by
  have hload : perform (issueOf (.ldkey (BitVec.ofNat 12 k.toNat))) s.applyReset = .next (s.applyReset.loadKey k) :=
    (perform_issueOf rfl _).trans (exec_ldkey_of_unkeyed rfl rfl (ofNat_masterKey_toNat k))
  have hcipher : perform (issueOf i) (s.applyReset.loadKey k) = .next ((s.applyReset.loadKey k).withResult d) :=
    (perform_issueOf rfl i).trans (exec_cipher_of_keyed rfl rfl hres)
  refine ⟨((s.applyReset.loadKey k).withResult d).withInputs [], ?_, rfl⟩
  calc runActions [.reset, issueOf (.ldkey (BitVec.ofNat 12 k.toNat)), issueOf i] s
      = runActions [issueOf (.ldkey (BitVec.ofNat 12 k.toNat)), issueOf i] s.applyReset :=
        runActions_cons_of_next rfl _
    _ = runActions [issueOf i] (s.applyReset.loadKey k) := runActions_cons_of_next hload _
    _ = runActions [] ((s.applyReset.loadKey k).withResult d) := runActions_cons_of_next hcipher _
    _ = _ := runActions_nil _

/-- Settles O48. -/
theorem apiCallsAsCommandSequences : Obligations.ApiCallsAsCommandSequences := by
  intro s k v
  refine ⟨runActions_apiCall s k rfl, runActions_apiCall s k rfl, fun sr er a b ha hb => runActions_apiCall s k ?_⟩
  rw [← roundOperand_eq_some_iff] at ha hb
  simp only [cipherResult, ha, hb]

end Machine

end Sys2Proof
end

section
/-! SUPPORT. The statement of 40_bit_expander.md: the expansion adds disjoint weights, so each output bit is a copy of
one input bit, and the rest follows from which bit it copies. -/

namespace Sys2Proof.Machine

/-! ### The closed form -/

/-- One test of R52 adds the target weight times the tested bit. -/
theorem expandBit_toNat (x : Half) (y : BitVec 8) (entry : Nat × BitVec 8) :
    (expandBit x y entry).toNat = (y.toNat + (x.getLsbD entry.1).toNat * entry.2.toNat) % 256 := by
  unfold expandBit
  cases x.getLsbD entry.1 with
  | true => simp
  | false => simpa using (Nat.mod_eq_of_lt y.isLt).symm

/-- R52's sum of weights: all six together are 255, so no addition overflows. -/
theorem expand_toNat (x : Half) :
    (expand x).toNat =
      128 * (x.getLsbD 5).toNat + 64 * (x.getLsbD 4).toNat + 40 * (x.getLsbD 2).toNat +
        20 * (x.getLsbD 3).toNat + 2 * (x.getLsbD 1).toNat + (x.getLsbD 0).toNat := by
  have bit_le (j : Nat) : (x.getLsbD j).toNat ≤ 1 := Bool.toNat_le _
  have h0 := bit_le 0
  have h1 := bit_le 1
  have h2 := bit_le 2
  have h3 := bit_le 3
  have h4 := bit_le 4
  have h5 := bit_le 5
  simp only [expand, expansionMap, List.foldl_cons, List.foldl_nil, expandBit_toNat, BitVec.reduceAdd, BitVec.reduceToNat]
  omega

/-! ### The wiring -/

/-- The input bit that each output bit copies (R51). -/
def expansionSource : Fin 8 → Fin 6 := ![0, 1, 3, 2, 3, 2, 4, 5]

/-- The lowest output bit that copies an input bit (R51). -/
def expansionTarget : Fin 6 → Fin 8 := ![0, 1, 3, 2, 6, 7]

theorem expansionSource_target (j : Fin 6) : expansionSource (expansionTarget j) = j := by
  revert j
  decide

/-- While the target sets are disjoint no test carries, and a sum of targets is their OR (R52). -/
theorem foldl_expandBit_getLsbD (x : Half) (m : List (Nat × BitVec 8)) (y : BitVec 8)
    (hy : ∀ e ∈ m, y &&& e.2 = 0) (hm : m.Pairwise fun a b => a.2 &&& b.2 = 0) (i : Nat) :
    (m.foldl (expandBit x) y).getLsbD i = (y.getLsbD i || m.any fun e => x.getLsbD e.1 && e.2.getLsbD i) := by
  induction m generalizing y with
  | nil => simp
  | cons e m ih =>
    obtain ⟨hye, hym⟩ := List.forall_mem_cons.1 hy
    obtain ⟨hem, hm⟩ := List.pairwise_cons.1 hm
    rw [List.foldl_cons, List.any_cons, expandBit]
    cases hbit : x.getLsbD e.1 with
    | false => simpa using ih y hym hm
    | true =>
      have hor : ∀ f ∈ m, (y ||| e.2) &&& f.2 = 0 := fun f hf => by
        rw [BitVec.and_or_distrib_right, hym f hf, hem f hf, BitVec.or_self]
      rw [if_pos rfl, BitVec.add_eq_or_of_and_eq_zero _ _ hye, ih _ hor hm, BitVec.getLsbD_or, Bool.true_and,
        Bool.or_assoc]

/-- Every output bit has exactly one source (R53). -/
theorem expand_getLsbD (x : Half) (i : Fin 8) : (expand x).getLsbD i = x.getLsbD (expansionSource i) := by
  rw [expand, foldl_expandBit_getLsbD x _ _ (by decide) (by decide)]
  fin_cases i <;> simp [expansionMap, expansionSource]

/-- Reads each input bit back from its lowest copy. -/
def unexpand (y : BitVec 8) : Half := BitVec.ofFnLE fun j => y.getLsbD (expansionTarget j)

theorem unexpand_getLsbD (y : BitVec 8) (j : Fin 6) : (unexpand y).getLsbD j = y.getLsbD (expansionTarget j) := by
  simp [unexpand]

theorem unexpand_expand (x : Half) : unexpand (expand x) = x :=
  BitVec.eq_of_getLsbD_eq fun j hj => by
    rw [unexpand_getLsbD _ ⟨j, hj⟩, expand_getLsbD, expansionSource_target]

/-- A value comes back when each of its bits agrees with the lowest copy of the same input bit. -/
theorem expand_unexpand_eq_iff (y : BitVec 8) :
    expand (unexpand y) = y ↔ ∀ i : Fin 8, y.getLsbD (expansionTarget (expansionSource i)) = y.getLsbD i := by
  simp only [← unexpand_getLsbD, ← expand_getLsbD]
  exact ⟨fun h i => by rw [h], fun h => BitVec.eq_of_getLsbD_eq fun i hi => h ⟨i, hi⟩⟩

/-- Only the upper copies of the two middle bits, `y[5]` and `y[4]`, are not the lowest (R53). -/
theorem copies_agree_iff (y : BitVec 8) :
    (∀ i : Fin 8, y.getLsbD (expansionTarget (expansionSource i)) = y.getLsbD i) ↔
      y.getLsbD 5 = y.getLsbD 3 ∧ y.getLsbD 4 = y.getLsbD 2 := by
  constructor
  · exact fun h => ⟨(h 5).symm, (h 4).symm⟩
  · rintro ⟨h5, h4⟩ i
    match i with
    | 4 => exact h4.symm
    | 5 => exact h5.symm
    | 0 | 1 | 2 | 3 | 6 | 7 => rfl

/-! ### Linear, injective, and the image -/

/-- Copying bits commutes with XOR (R53). -/
theorem expand_xor (x y : Half) : expand (x ^^^ y) = expand x ^^^ expand y :=
  BitVec.eq_of_getLsbD_eq fun i hi => by
    simp only [BitVec.getLsbD_xor, expand_getLsbD _ ⟨i, hi⟩]

theorem expand_injective : Function.Injective expand := Function.LeftInverse.injective unexpand_expand

/-- The image of the expansion (R53). -/
theorem exists_expand_eq_iff (y : BitVec 8) :
    (∃ x, expand x = y) ↔ y.getLsbD 5 = y.getLsbD 3 ∧ y.getLsbD 4 = y.getLsbD 2 := by
  rw [← copies_agree_iff, ← expand_unexpand_eq_iff]
  constructor
  · rintro ⟨x, rfl⟩
    rw [unexpand_expand]
  · exact fun h => ⟨_, h⟩

/-- Settles O1: SD's four values and the check of the map are evaluated, the rest is the wiring. -/
theorem expandIsTheFixedWiring : Obligations.ExpandIsTheFixedWiring :=
  ⟨expand_toNat, expand_xor, fun _ _ h => expand_injective h, exists_expand_eq_iff, by decide, by decide⟩

end Sys2Proof.Machine
end

section
/-! SUPPORT. The statement of 41_sbox_pair.md: no row of a box lists a word twice, and a row is as long as there are
words, so it lists each once; a ROM is its box's two rows end to end, so it lists each word twice. -/

namespace Sys2Proof.Machine

/-! ### The rows -/

/-- No row of either table repeats a word (R55, R56). -/
theorem sboxTable_row_nodup (b : Box) (row : Fin 2) : ((sboxTable b).get row).toList.Nodup := by
  cases b <;> revert row <;> decide

theorem sLookup_injective (b : Box) (row : BitVec 1) : Function.Injective (sLookup b row) := by
  intro c d h
  have hcol : c.toNat = d.toNat := (sboxTable_row_nodup b row.toFin).getElem_inj_iff.1 h
  exact BitVec.eq_of_toNat_eq hcol

/-- Columns and words are equally many, so a row without repetition is a permutation (R58). -/
theorem sLookup_bijective (b : Box) (row : BitVec 1) : Function.Bijective (sLookup b row) :=
  Finite.injective_iff_bijective.1 (sLookup_injective b row)

/-! ### The words of a ROM -/

theorem count_sboxTable_row (b : Box) (w : SboxWord) (row : Fin 2) : ((sboxTable b).get row).count w = 1 := by
  obtain ⟨col, hcol⟩ := (sLookup_bijective b ⟨row⟩).surjective w
  have hmem : w ∈ (sboxTable b).get row := hcol ▸ Vector.getElem_mem col.isLt
  rw [← Vector.count_toList]
  exact List.count_eq_one_of_mem (sboxTable_row_nodup b row) (Vector.mem_toList_iff.2 hmem)

/-- Each of the two rows a ROM lists contributes one occurrence (R28, R58). -/
theorem count_romTable (b : Box) (w : SboxWord) : (romTable b).count w = 2 := by
  have hrows : (sboxTable b).map (Vector.count w) = Vector.replicate 2 1 :=
    Vector.ext fun row hrow => by
      rw [Vector.getElem_map, Vector.getElem_replicate]
      exact count_sboxTable_row b w ⟨row, hrow⟩
  rw [romTable_eq_flatten, Vector.count_flatten, hrows]
  rfl

/-- Reading a ROM at the addresses 0 to 15 gives its list (R29). -/
theorem map_romRead_range (b : Box) :
    (List.range 16).map (fun a => romRead b (BitVec.ofNat 4 a)) = (romTable b).toList := by
  refine List.ext_getElem (by simp) fun a ha _ => ?_
  have hmod : a % 16 = a := Nat.mod_eq_of_lt (by simpa using ha)
  simp [romRead, Vector.get_eq_getElem, hmod]

/-- Settles O3. -/
theorem sboxRowsArePermutations : Obligations.SboxRowsArePermutations := by
  refine ⟨fun b row w => (sLookup_bijective b row).existsUnique w, fun b w => ?_⟩
  calc ((List.range 16).filter fun a => romRead b (BitVec.ofNat 4 a) == w).length
      = ((List.range 16).map fun a => romRead b (BitVec.ofNat 4 a)).count w := by
        rw [List.count, List.countP_map, List.countP_eq_length_filter]
        rfl
    _ = (romTable b).count w := by rw [map_romRead_range, Vector.count_toList]
    _ = 2 := count_romTable b w

end Sys2Proof.Machine
end

section
/-! SUPPORT. The statements of 42_key_schedule.md: R60's sum of two shifts is the rotation of a 9-bit word, so a round
key is the upper eight bits of the rotated key, and the bits, the windows and the period are the rotation's. -/

namespace Sys2Proof.Machine

/-! ### The rotated key -/

/-- The high part of R60's split fits under the shifted low part. -/
theorem key_shiftRight_lt (k : MasterKey) {n : Nat} (hn : n ≤ 9) : k.toNat >>> (9 - n) < 2 ^ n := by
  rw [Nat.shiftRight_eq_div_pow]
  refine Nat.div_lt_of_lt_mul ?_
  rw [← pow_add, Nat.sub_add_cancel hn]
  exact k.isLt

/-- Dropping the high part before the left shift is dropping the bits that leave the 9-bit field after it. -/
theorem key_mod_shiftLeft (k : MasterKey) {n : Nat} (hn : n ≤ 9) :
    (k.toNat % 2 ^ (9 - n)) <<< n = k.toNat <<< n % 2 ^ 9 := by
  rw [Nat.shiftLeft_eq, Nat.shiftLeft_eq, ← Nat.mul_mod_mul_right, ← pow_add, Nat.sub_add_cancel hn]

/-- R60's sum has no carry: it is the 9-bit key rotated left. -/
theorem rotatedKey_eq_toNat_rotateLeft (k : MasterKey) (i : RoundIndex) :
    rotatedKey k (i.t % 9) = (k.rotateLeft i.t).toNat := by
  have hn : i.t % 9 ≤ 9 := (Nat.mod_lt _ (by decide)).le
  rw [BitVec.toNat_rotateLeft, ← key_mod_shiftLeft k hn, ← Nat.shiftLeft_add_eq_or_of_lt (key_shiftRight_lt k hn)]
  rfl

/-- "Left" is toward the most significant bit (R60): bit `m` comes from `index` places below it, around the word. -/
theorem rotateLeft_key_getLsbD (k : MasterKey) (t : Nat) {m : Nat} (hm : m < 9) :
    (k.rotateLeft t).getLsbD m = k.getLsbD ((m + 9 - t % 9) % 9) := by
  have hn : t % 9 < 9 := Nat.mod_lt _ (by decide)
  rw [BitVec.getLsbD_rotateLeft]
  by_cases h : m < t % 9
  · have hsource : (m + 9 - t % 9) % 9 = 9 - t % 9 + m := by omega
    simp [h, hsource]
  · have hsource : (m + 9 - t % 9) % 9 = m - t % 9 := by omega
    simp [h, hm, hsource]

theorem rotatedKey_testBit (k : MasterKey) (i : RoundIndex) {m : Nat} (hm : m < 9) :
    (rotatedKey k (i.t % 9)).testBit m = k.getLsbD ((m + 9 - i.t % 9) % 9) := by
  rw [rotatedKey_eq_toNat_rotateLeft, BitVec.testBit_toNat, rotateLeft_key_getLsbD k i.t hm]

/-! ### The round key -/

/-- The round key is the rotated key without its lowest bit: nothing is lost at the top. -/
theorem roundKey_toNat (k : MasterKey) (i : RoundIndex) : (roundKey k i).toNat = rotatedKey k (i.t % 9) / 2 := by
  have hlt : rotatedKey k (i.t % 9) < 2 ^ 9 := rotatedKey_eq_toNat_rotateLeft k i ▸ (k.rotateLeft i.t).isLt
  rw [roundKey, rotationIndex, BitVec.toNat_ofNat, Nat.shiftRight_one]
  exact Nat.mod_eq_of_lt (by omega)

theorem roundKey_getLsbD (k : MasterKey) (i : RoundIndex) {j : Nat} (hj : j < 8) :
    (roundKey k i).getLsbD j = k.getLsbD ((j + 1 + 9 - i.t % 9) % 9) := by
  rw [← BitVec.testBit_toNat, roundKey_toNat, ← Nat.testBit_succ, rotatedKey_testBit k i (Nat.succ_lt_succ hj)]

/-- R61's first window: without a rotation the round key is `k[8:1]`. -/
theorem roundKey_toNat_of_index_zero (k : MasterKey) {i : RoundIndex} (hi : i.t % 9 = 0) :
    (roundKey k i).toNat = k.toNat / 2 := by
  have hk : k.toNat >>> 9 = 0 := Nat.shiftRight_eq_zero _ _ k.isLt
  have hlow : k.toNat % 2 ^ 9 = k.toNat := Nat.mod_eq_of_lt k.isLt
  rw [roundKey_toNat, hi, rotatedKey, Nat.sub_zero, hk, hlow, Nat.shiftLeft_zero, Nat.add_zero]

/-- R61's other windows: the low slice of the key above its high slice, whose lowest bit is the one left out. -/
theorem roundKey_toNat_of_index_ne_zero (k : MasterKey) {i : RoundIndex} (hi : i.t % 9 ≠ 0) :
    (roundKey k i).toNat =
      k.toNat % 2 ^ (9 - i.t % 9) * 2 ^ (i.t % 9 - 1) + k.toNat / 2 ^ (9 - i.t % 9) / 2 := by
  obtain ⟨n, hn⟩ := Nat.exists_eq_succ_of_ne_zero hi
  rw [roundKey_toNat, rotatedKey, hn, Nat.succ_sub_one, Nat.shiftLeft_eq, Nat.shiftRight_eq_div_pow, Nat.pow_succ,
    ← Nat.mul_assoc]
  omega

/-- Settles O4: the dropped bit is bit 0 of the rotation, the two-round cipher's keys its windows 0 and 1. -/
theorem roundKeyIsARotatedWindow : Obligations.RoundKeyIsARotatedWindow := by
  refine ⟨fun k i m hm => rotatedKey_testBit k i hm, fun k i j hj => roundKey_getLsbD k i hj, fun k i => ?_,
    fun k i => ?_, fun k => ⟨roundKey_toNat_of_index_zero k rfl, ?_⟩⟩
  · rw [rotatedKey_testBit k i (by decide), Nat.zero_add]
  · split
    case isTrue hi => exact roundKey_toNat_of_index_zero k hi
    case isFalse hi => exact roundKey_toNat_of_index_ne_zero k hi
  · have hk : k.toNat < 512 := k.isLt
    have hwindow : (roundKey k ⟨1⟩).toNat = k.toNat % 256 * 1 + k.toNat / 256 / 2 :=
      roundKey_toNat_of_index_ne_zero k (by decide)
    omega

/-! ### The period -/

/-- The schedule reads the index through the rotation only (R62). -/
theorem roundKey_eq_of_mod_eq (k : MasterKey) {i j : RoundIndex} (h : i.t % 9 = j.t % 9) :
    roundKey k i = roundKey k j := by
  rw [roundKey, rotationIndex, h]
  rfl

/-- The round keys of one period, one for each rotation. -/
def periodKeys (k : MasterKey) : List RoundKeyWord := (List.range 9).map fun t => roundKey k ⟨t⟩

theorem roundKey_mem_periodKeys (k : MasterKey) (i : RoundIndex) : roundKey k i ∈ periodKeys k :=
  List.mem_map.2 ⟨i.t % 9, List.mem_range.2 (Nat.mod_lt _ (by decide)), roundKey_eq_of_mod_eq k (Nat.mod_mod _ _)⟩

/-- Each bit of a round key is a bit of the key, so where all key bits are the same no rotation shows (R62). -/
theorem roundKey_fill (b : Bool) (i : RoundIndex) : roundKey (BitVec.fill 9 b) i = BitVec.fill 8 b :=
  BitVec.eq_of_getLsbD_eq fun j hj => by
    have hsource : (j + 1 + 9 - i.t % 9) % 9 < 9 := Nat.mod_lt _ (by decide)
    simp only [roundKey_getLsbD _ i hj, BitVec.getLsbD_fill, hsource, hj]

/-- Settles O5: the keys 0 and 511 are the two with all bits the same. -/
theorem keyScheduleHasPeriodNine : Obligations.KeyScheduleHasPeriodNine := by
  refine ⟨fun k i j h => roundKey_eq_of_mod_eq k ?_, fun k i j h => roundKey_eq_of_mod_eq k h,
    fun k => ⟨periodKeys k, by simp [periodKeys], roundKey_mem_periodKeys k⟩,
    fun i => ⟨roundKey_fill false i, roundKey_fill true i⟩⟩
  have ht : j.t = i.t + 9 := by
    simp only [RoundIndex.i] at h
    omega
  rw [ht, Nat.add_mod_right]

end Sys2Proof.Machine
end

section
/-! SUPPORT. The statement of 43_round_function.md: R65's lookups are the two ROM reads of R29, and its sum of two
3-bit words, the first shifted by three, never leaves six bits, so nothing is lost when the words are joined. -/

namespace Sys2Proof.Machine

/-- Steps 3 to 6 of R65 on the ROM form of the S-boxes: the sum has no carry out of six bits. -/
theorem substitute_toNat (x : BitVec 8) :
    (substitute x).toNat =
      8 * (romRead .one (x.extractLsb' 4 4)).toNat + (romRead .two (x.extractLsb' 0 4)).toNat := by
  have hhigh : (romRead .one (x.extractLsb' 4 4)).toNat < 8 := (romRead .one _).isLt
  have hlow : (romRead .two (x.extractLsb' 0 4)).toNat < 8 := (romRead .two _).isLt
  rw [substitute, ← romRead_eq_sLookup, ← romRead_eq_sLookup, BitVec.toNat_ofNat, Nat.shiftLeft_eq]
  omega

/-- The key and the half enter through their XOR only (R66 (a)). -/
theorem roundFunction_eq_of_xor_eq {r r' : Half} {k k' : RoundKeyWord} (h : k ^^^ expand r = k' ^^^ expand r') :
    roundFunction r k = roundFunction r' k' :=
  congrArg substitute h

/-- Both ROMs are read at address 0, where they list 5 and 4. -/
theorem substitute_zero : substitute 0 = 44 := by decide

/-- Settles O6: the key that equals the expanded half makes the XOR 0. -/
theorem roundFunctionReadsBothRoms : Obligations.RoundFunctionReadsBothRoms := by
  refine ⟨fun r k => substitute_toNat (k ^^^ expand r), fun _ _ _ _ => roundFunction_eq_of_xor_eq, fun r => ?_⟩
  calc roundFunction r (expand r) = substitute 0 := congrArg substitute (BitVec.xor_self)
    _ = 44 := substitute_zero

end Sys2Proof.Machine
end

section
/-! SUPPORT. The statements of 44_feistel_engine.md, and the inverse law on the machine: the round sequence counts from
the start round to the end round and backwards with the rounds exchanged; a round undoes itself once the halves are
swapped, and the swap is what the assembly of a pass and the split of the next one make. -/

namespace Sys2Proof.Machine

/-! ### The round sequence -/

theorem passDirection_of_le {s e : RoundIndex} (h : s.i ≤ e.i) : passDirection s e = .encryption := if_pos h

theorem passDirection_of_gt {s e : RoundIndex} (h : e.i < s.i) : passDirection s e = .decryption :=
  if_neg (Nat.not_le.2 h)

/-- `|s - e| + 1` (R69): of the two differences one is 0. -/
theorem roundCount_eq (s e : RoundIndex) : roundCount s e = (s.i - e.i) + (e.i - s.i) + 1 := by
  by_cases h : s.i ≤ e.i <;> simp only [roundCount, passDirection, h, if_true, if_false] <;> omega

theorem rounds_length (s e : RoundIndex) : (rounds s e).length = roundCount s e := by
  simp [rounds]

theorem rounds_getElem {s e : RoundIndex} {n : Nat} (h : n < (rounds s e).length) :
    (rounds s e)[n] = nthRound (passDirection s e) s n := by
  simp [rounds]

/-- With the rounds exchanged a pass counts back from its last round. -/
theorem nthRound_exchanged {s e : RoundIndex} {n : Nat} (h : n < roundCount s e) :
    nthRound (passDirection e s) e n = nthRound (passDirection s e) s (roundCount s e - 1 - n) := by
  rw [roundCount_eq] at h ⊢
  rcases lt_trichotomy s.i e.i with hlt | heq | hgt
  case' inl => rw [passDirection_of_gt hlt, passDirection_of_le hlt.le]
  case' inr.inl => rw [passDirection_of_le heq.ge, passDirection_of_le heq.le]
  case' inr.inr => rw [passDirection_of_le hgt.le, passDirection_of_gt hgt]
  all_goals
    simp only [nthRound, RoundIndex.i, RoundIndex.ext_iff] at *
    omega

/-- R69: `Rounds(e, s)` is `Rounds(s, e)` reversed. -/
theorem rounds_exchanged (s e : RoundIndex) : rounds e s = (rounds s e).reverse := by
  have hcount : roundCount e s = roundCount s e := by
    rw [roundCount_eq, roundCount_eq]
    omega
  refine List.ext_getElem (by simp [rounds_length, hcount]) fun n hn _ => ?_
  rw [rounds_length, hcount] at hn
  rw [List.getElem_reverse, rounds_getElem, rounds_getElem, rounds_length, nthRound_exchanged hn]

theorem rounds_head? (s e : RoundIndex) : (rounds s e).head? = some s := by
  have hfirst : nthRound (passDirection s e) s 0 = s := by cases passDirection s e <;> rfl
  rw [rounds, roundCount_eq, List.range_succ_eq_map, List.map_cons, List.head?_cons, hfirst]

theorem rounds_getLast? (s e : RoundIndex) : (rounds s e).getLast? = some e := by
  rw [← List.head?_reverse, ← rounds_exchanged, rounds_head?]

theorem map_i_rounds_of_le {s e : RoundIndex} (h : s.i ≤ e.i) :
    (rounds s e).map RoundIndex.i = List.range' s.i (e.i - s.i + 1) := by
  have hnth : ∀ n, (nthRound .encryption s n).i = s.i + n := fun n => Nat.add_right_comm s.t n 1
  rw [rounds, roundCount_eq, Nat.sub_eq_zero_of_le h, Nat.zero_add, passDirection_of_le h, List.map_map,
    List.range'_eq_map_range]
  exact List.map_congr_left fun n _ => hnth n

/-- A falling pass is a rising one reversed. -/
theorem map_i_rounds_of_gt {s e : RoundIndex} (h : e.i < s.i) :
    (rounds s e).map RoundIndex.i = (List.range' e.i (s.i - e.i + 1)).reverse := by
  rw [rounds_exchanged e s, List.map_reverse, map_i_rounds_of_le h.le]

/-- Settles O7: the length is the round count, and the last round is the first of the exchanged pass. -/
theorem roundsRunFromStartToEnd : Obligations.RoundsRunFromStartToEnd := fun s e =>
  ⟨fun h => ⟨passDirection_of_le h, map_i_rounds_of_le h⟩, fun h => ⟨passDirection_of_gt h, map_i_rounds_of_gt h⟩,
    (rounds_length s e).trans (roundCount_eq s e), rounds_head? s e, rounds_getLast? s e,
    fun x _ => Nat.succ_pos x.t, rounds_exchanged s e⟩

/-! ### Split, round step and assembly -/

/-- The pair with its halves exchanged. -/
def Halves.swap (p : Halves) : Halves := ⟨p.r, p.l⟩

theorem split_eq_of_toNat {v : Block} {l r : Half} (hl : l.toNat = v.toNat / 64) (hr : r.toNat = v.toNat % 64) :
    split v = ⟨l, r⟩ := by
  rw [← split_l_toNat, BitVec.toNat_inj] at hl
  rw [← split_r_toNat, BitVec.toNat_inj] at hr
  rw [hl, hr]

/-- The assembly puts `R` where the split finds `L` (R68, R71). -/
theorem split_assemble (p : Halves) : split (assemble p) = p.swap := by
  have hl : p.l.toNat < 64 := p.l.isLt
  apply split_eq_of_toNat
  · rw [assemble_toNat]
    omega
  · rw [assemble_toNat]
    omega

theorem assemble_swap_split (v : Block) : assemble (split v).swap = v := by
  rw [← BitVec.toNat_inj, assemble_toNat]
  simp only [Halves.swap, split_l_toNat, split_r_toNat]
  omega

/-- Settles O8: the split and the assembly by their numbers, the round step by its definition. -/
theorem splitRoundAndAssembly : Obligations.SplitRoundAndAssembly :=
  ⟨fun v => ⟨split_l_toNat v, split_r_toNat v⟩, fun _ _ _ => rfl, assemble_toNat, split_assemble⟩

/-! ### The inverse law -/

/-- The new `L` is the old `R`, so the round function answers the same again and its two XORs cancel (R73). -/
theorem feistelRound_swap_feistelRound (g : Half → Half) (p : Halves) :
    feistelRound g (feistelRound g p).swap = p.swap := by
  simp only [feistelRound, Halves.swap, ← BitVec.xor_assoc, BitVec.xor_self, BitVec.zero_xor]

/-- The rounds in reverse order undo the rounds, from the swapped pair to the swapped pair. -/
theorem foldl_feistelRound_reverse (g : RoundIndex → Half → Half) (is : List RoundIndex) (p : Halves) :
    is.reverse.foldl (fun p i => feistelRound (g i) p) (is.foldl (fun p i => feistelRound (g i) p) p).swap =
      p.swap := by
  induction is generalizing p with
  | nil => rfl
  | cons i is ih =>
    rw [List.reverse_cons, List.foldl_append, List.foldl_cons (l := is), ih]
    exact feistelRound_swap_feistelRound (g i) p

/-- R73 for any round function. -/
theorem networkPass_exchanged (g : RoundIndex → Half → Half) (v : Block) (s e : RoundIndex) :
    networkPass g (networkPass g v s e) e s = v := by
  rw [networkPass, networkPass, split_assemble, rounds_exchanged s e, foldl_feistelRound_reverse, assemble_swap_split]

/-- `Process` is the network with the round function of R65 under the round keys. -/
theorem process_eq_networkPass (v : Block) (k : MasterKey) (s e : RoundIndex) :
    process v k s e = networkPass (fun i r => roundFunction r (roundKey k i)) v s e := rfl

theorem process_exchanged (v : Block) (k : MasterKey) (s e : RoundIndex) : process (process v k s e) k e s = v := by
  rw [process_eq_networkPass, process_eq_networkPass, networkPass_exchanged]

theorem process_bijective (k : MasterKey) (s e : RoundIndex) : Function.Bijective fun v => process v k s e :=
  Function.bijective_iff_has_inverse.2
    ⟨fun v => process v k e s, fun v => process_exchanged v k s e, fun v => process_exchanged v k e s⟩

/-- Settles O9: a single round and the cipher's two rounds are cases of the law. -/
theorem exchangedRoundsInvertAPass : Obligations.ExchangedRoundsInvertAPass :=
  ⟨networkPass_exchanged, process_exchanged, fun v k s => process_exchanged v k s s,
    fun v k => process_exchanged v k roundOne roundTwo, process_bijective⟩

/-! ### The two-round cipher -/

theorem decrypt_encrypt (p : Block) (k : MasterKey) : decrypt (encrypt p k) k = p :=
  process_exchanged p k roundOne roundTwo

theorem encrypt_decrypt (c : Block) (k : MasterKey) : encrypt (decrypt c k) k = c :=
  process_exchanged c k roundTwo roundOne

/-- A pass of two rounds, unrolled: the second round leaves the new half of the first in `L` (R74). -/
theorem process_toNat_of_two_rounds {a b : RoundIndex} (hab : rounds a b = [a, b]) {v : Block} {l r : Half}
    (hv : split v = ⟨l, r⟩) (k : MasterKey) :
    (process v k a b).toNat =
      (r ^^^ roundFunction (l ^^^ roundFunction r (roundKey k a)) (roundKey k b)).toNat * 64 +
        (l ^^^ roundFunction r (roundKey k a)).toNat := by
  rw [process, hab, hv, assemble_toNat]
  simp only [List.foldl_cons, List.foldl_nil, roundStep, feistelRound, BitVec.xor_comm]

/-- The round keys of R61, `K1 = k >> 1` and `K2 = k mod 256`. -/
theorem roundKeys_of_toNat {k : MasterKey} {k1 k2 : RoundKeyWord} (h1 : k1.toNat = k.toNat / 2)
    (h2 : k2.toNat = k.toNat % 256) : roundKey k roundOne = k1 ∧ roundKey k roundTwo = k2 := by
  obtain ⟨-, -, -, -, hkeys⟩ := roundKeyIsARotatedWindow
  obtain ⟨hone, htwo⟩ := hkeys k
  exact ⟨BitVec.eq_of_toNat_eq (hone.trans h1.symm), BitVec.eq_of_toNat_eq (htwo.trans h2.symm)⟩

/-- Settles O10: both unrolled forms are the two-round pass, with the round keys in the order of its rounds. -/
theorem encryptAndDecryptUnrolled : Obligations.EncryptAndDecryptUnrolled := by
  refine ⟨fun p k => ⟨rfl, rfl⟩, fun p k k1 k2 h1 h2 l0 r0 hl hr => ?_,
    fun p k => ⟨decrypt_encrypt p k, encrypt_decrypt p k⟩⟩
  obtain ⟨rfl, rfl⟩ := roundKeys_of_toNat h1 h2
  have hp : split p = ⟨l0, r0⟩ := split_eq_of_toNat hl hr
  exact ⟨process_toNat_of_two_rounds (a := roundOne) (b := roundTwo) rfl hp k,
    process_toNat_of_two_rounds (a := roundTwo) (b := roundOne) rfl hp k⟩

/-! ### The period of a pass -/

/-- The round `m` places after a round. -/
def laterRound (m : Nat) (x : RoundIndex) : RoundIndex := ⟨x.t + m⟩

theorem laterRound_i (m : Nat) (x : RoundIndex) : (laterRound m x).i = x.i + m := Nat.add_right_comm x.t m 1

theorem eq_laterRound_of_i {m : Nat} {x y : RoundIndex} (h : y.i = x.i + m) : y = laterRound m x := by
  simp only [RoundIndex.i, laterRound, RoundIndex.ext_iff] at *
  omega

theorem passDirection_laterRound (m : Nat) (s e : RoundIndex) :
    passDirection (laterRound m s) (laterRound m e) = passDirection s e := by
  simp only [passDirection, laterRound_i, Nat.add_le_add_iff_right]

theorem roundCount_laterRound (m : Nat) (s e : RoundIndex) :
    roundCount (laterRound m s) (laterRound m e) = roundCount s e := by
  simp only [roundCount_eq, laterRound_i, Nat.add_sub_add_right]

/-- A pass does not count below its lowest round, so its rounds move with their ends. -/
theorem nthRound_laterRound (m : Nat) {s e : RoundIndex} {n : Nat} (h : n < roundCount s e) :
    nthRound (passDirection s e) (laterRound m s) n = laterRound m (nthRound (passDirection s e) s n) := by
  cases hd : passDirection s e with
  | encryption => exact congrArg RoundIndex.mk (Nat.add_right_comm s.t m n)
  | decryption =>
    have hn : n ≤ s.t := Nat.lt_succ_iff.1 (h.trans_le (roundCount_le_of_decryption hd))
    exact congrArg RoundIndex.mk (Nat.sub_add_comm hn)

theorem rounds_laterRound (m : Nat) (s e : RoundIndex) :
    rounds (laterRound m s) (laterRound m e) = (rounds s e).map (laterRound m) := by
  rw [rounds, rounds, roundCount_laterRound, passDirection_laterRound, List.map_map]
  exact List.map_congr_left fun n hn => nthRound_laterRound m (List.mem_range.1 hn)

/-- A round nine later has the same round key (R62), and the round step reads the index through it only. -/
theorem roundStep_laterRound_nine (k : MasterKey) (i : RoundIndex) (p : Halves) :
    roundStep k (laterRound 9 i) p = roundStep k i p := by
  have hkey : roundKey k (laterRound 9 i) = roundKey k i := roundKey_eq_of_mod_eq k (Nat.add_mod_right i.t 9)
  rw [roundStep, hkey, roundStep]

/-- Settles O11: the same rounds, each nine later, have the same round keys. -/
theorem passHasPeriodNine : Obligations.PassHasPeriodNine := by
  intro v k s e s' e' hs he
  rw [eq_laterRound_of_i hs, eq_laterRound_of_i he, process, rounds_laterRound, List.foldl_map]
  simp only [roundStep_laterRound_nine, process]

/-! ### The inverse law on the machine -/

/-- A completed cipher command leaves the key loaded and the engine running, so a second one that takes the first one's
result completes as well, under the same key. -/
theorem exec_twice_of_keyed {s : State} (herr : s.err = 0) (hkv : s.kv = true) {i : Instr} {j : Block → Instr}
    {c d : Block} (hi : cipherResult s.key i = some c) (hj : cipherResult s.key (j c) = some d) :
    ∃ t u, exec i s = .next t ∧ exec (j t.dout) t = .next u ∧ u.dout = d ∧ u.dv = true :=
  ⟨s.withResult c, (s.withResult c).withResult d, exec_cipher_of_keyed herr hkv hi,
    exec_cipher_of_keyed (s := s.withResult c) herr hkv hj, rfl, rfl⟩

/-- A round field that is not 0 names a round (R45). -/
theorem exists_roundOperand {f : Nibble} (h : f ≠ 0) : ∃ x, roundOperand f = some x :=
  Option.ne_none_iff_exists'.1 ((roundOperand_eq_none_iff f).not.2 h)

theorem cipherResult_proc {sr er : Nibble} {a b : RoundIndex} (ha : roundOperand sr = some a)
    (hb : roundOperand er = some b) (k : MasterKey) (v : Block) :
    cipherResult k (.proc v sr er) = some (process v k a b) := by
  simp only [cipherResult, ha, hb]

/-- Settles O25: the second command's result is the first block by the inverse law. -/
theorem commandsUndoEachOther : Obligations.CommandsUndoEachOther := by
  intro v s herr hkv
  refine ⟨fun sr er hsr her => ?_, ?_, ?_⟩
  · obtain ⟨a, ha⟩ := exists_roundOperand hsr
    obtain ⟨b, hb⟩ := exists_roundOperand her
    exact exec_twice_of_keyed (j := (.proc · er sr)) herr hkv (cipherResult_proc ha hb s.key v)
      ((cipherResult_proc hb ha s.key _).trans (congrArg some (process_exchanged v s.key a b)))
  · exact exec_twice_of_keyed (j := .dec) herr hkv rfl (congrArg some (decrypt_encrypt v s.key))
  · exact exec_twice_of_keyed (j := .enc) herr hkv rfl (congrArg some (encrypt_decrypt v s.key))

end Sys2Proof.Machine
end

section
/-! SUPPORT. The statements of 45_commands.md: the checks and the load of `LDKEY` (R78), the frame that the three cipher
commands share (R79 to R81), and `ENC` and `DEC` as two passes of `PROC`. -/

namespace Sys2Proof.Machine

/-! ### The key load -/

/-- R86: a key at or above 512 is refused, keyed or not. -/
theorem exec_ldkey_of_outOfRange {s : State} (herr : s.err = 0) {data : BitVec 12} (h : 512 ≤ data.toNat) :
    exec (.ldkey data) s = .next { s with err := 2 } :=
  (rangeViolationIffAnOperandIsIllegal (.ldkey data) s herr).2
    (Bool.eq_false_iff.2 ((wellFormed_ldkey_iff data).not.2 h.not_gt))

/-- R88: a second key is refused. -/
theorem exec_ldkey_of_keyed {s : State} (herr : s.err = 0) (hkv : s.kv = true) {data : BitVec 12} {k : MasterKey}
    (hk : data.toNat = k.toNat) : exec (.ldkey data) s = .next { s with err := 4 } := by
  rw [exec, execLdkey, unlessHalted_of_running herr, (keyOperand_eq_some_iff data k).2 hk]
  exact if_pos hkv

/-- `DATA` below 512 is the number of a master key (R45). -/
theorem exists_masterKey_of_lt {data : BitVec 12} (h : data.toNat < 512) : ∃ k : MasterKey, data.toNat = k.toNat :=
  ⟨BitVec.ofNatLT data.toNat h, rfl⟩

/-- The worked example of R78: a Reset and the word `0x1001C7` load the key `0x1C7`, from any state. -/
theorem runActions_reset_ldkey (s : State) :
    runActions [.reset, .issue 0x1001C7] s = .next ((s.applyReset.loadKey 0x1C7).withInputs []) := by
  have hload : perform (issueOf (.ldkey 0x1C7)) s.applyReset = .next (s.applyReset.loadKey 0x1C7) :=
    (perform_issueOf rfl _).trans (exec_ldkey_of_unkeyed rfl rfl rfl)
  calc runActions [.reset, issueOf (.ldkey 0x1C7)] s
      = runActions [issueOf (.ldkey 0x1C7)] s.applyReset := runActions_cons_of_next rfl _
    _ = runActions [] (s.applyReset.loadKey 0x1C7) := runActions_cons_of_next hload _
    _ = _ := runActions_nil _

/-- Settles O17, one case per check in the order of R92; `DV` is 0 under the invariant because it asks for `KV`. -/
theorem ldkeyLoadsTheKeyOnce : Obligations.LdkeyLoadsTheKeyOnce := by
  refine ⟨fun data s herr => ?_, fun s hinv hd hkv => ?_, rfl, _, runActions_reset_ldkey _, rfl, rfl, rfl⟩
  · split_ifs with hrange hkv
    · exact exec_ldkey_of_outOfRange herr hrange
    · obtain ⟨k, hk⟩ := exists_masterKey_of_lt (not_le.1 hrange)
      exact exec_ldkey_of_keyed herr hkv hk
    · obtain ⟨k, hk⟩ := exists_masterKey_of_lt (not_le.1 hrange)
      exact ⟨k, hk.symm, exec_ldkey_of_unkeyed herr (Bool.eq_false_iff.2 hkv) hk⟩
  · obtain ⟨-, hdv⟩ := hinv hd
    simpa [hkv] using hdv

/-! ### The cipher commands -/

/-- A completed cipher command writes its result and `DV`, leaves the hidden registers with values of their own, and
changes no other register (R79 to R81). -/
theorem exec_cipher_frame {s : State} (herr : s.err = 0) (hkv : s.kv = true) {i : Instr} {d : Block}
    (hres : cipherResult s.key i = some d) :
    ∃ (l r : Half) (q : Sequencer) (n : Nat), exec i s =
      .next { s with dout := d, dv := true, l := l, r := r, seq := q, draws := n } :=
  ⟨_, _, _, _, exec_cipher_of_keyed herr hkv hres⟩

/-- Settles O18. -/
theorem encWritesTheEncryptedBlock : Obligations.EncWritesTheEncryptedBlock :=
  fun _ _ herr hkv => exec_cipher_frame herr hkv rfl

/-- Settles O19. -/
theorem decWritesTheDecryptedBlock : Obligations.DecWritesTheDecryptedBlock :=
  fun _ _ herr hkv => exec_cipher_frame herr hkv rfl

/-- Settles O20: fields that are the numbers of two rounds are legal operands. -/
theorem procWritesThePassResult : Obligations.ProcWritesThePassResult := by
  intro v sr er a b s herr hkv ha hb
  rw [← roundOperand_eq_some_iff] at ha hb
  exact exec_cipher_frame herr hkv (cipherResult_proc ha hb s.key v)

/-! ### `ENC` and `DEC` as passes of `PROC` -/

/-- `PROC` with legal round fields is the pass they name, behind the two checks that all cipher commands share. -/
theorem exec_proc_of_roundOperand {sr er : Nibble} {a b : RoundIndex} (ha : roundOperand sr = some a)
    (hb : roundOperand er = some b) (v : BitVec 12) (s : State) :
    exec (.proc v sr er) s = unlessHalted s fun s => requireKey s fun s => .next (s.cipherPass v a b) := by
  simp only [exec, execProc, ha, hb, blockOperand]

/-- Passes with the same result have the same effect. -/
theorem State.cipherPass_congr {v : Block} {a b a' b' : RoundIndex} {st : State}
    (h : process v st.key a b = process v st.key a' b') : st.cipherPass v a b = st.cipherPass v a' b' := by
  rw [State.cipherPass_eq, State.cipherPass_eq, h]

theorem exec_enc_eq_proc (v : BitVec 12) (s : State) : exec (.enc v) s = exec (.proc v 1 2) s :=
  (exec_proc_of_roundOperand (a := roundOne) (b := roundTwo) rfl rfl v s).symm

theorem exec_dec_eq_proc (v : BitVec 12) (s : State) : exec (.dec v) s = exec (.proc v 2 1) s :=
  (exec_proc_of_roundOperand (a := roundTwo) (b := roundOne) rfl rfl v s).symm

/-- Rounds 10 and 11 have the round keys of rounds 1 and 2 (R62, R75). -/
theorem exec_proc_ten_eleven (v : BitVec 12) (s : State) : exec (.proc v 10 11) s = exec (.enc v) s := by
  have hpass (st : State) : st.cipherPass v ⟨9⟩ ⟨10⟩ = st.cipherPass v roundOne roundTwo :=
    State.cipherPass_congr (passHasPeriodNine v st.key roundOne roundTwo ⟨9⟩ ⟨10⟩ rfl rfl)
  calc exec (.proc v 10 11) s
      = unlessHalted s fun s => requireKey s fun s => .next (s.cipherPass v ⟨9⟩ ⟨10⟩) :=
        exec_proc_of_roundOperand rfl rfl v s
    _ = unlessHalted s fun s => requireKey s fun s => .next (s.cipherPass v roundOne roundTwo) := by simp only [hpass]
    _ = exec (.enc v) s := rfl

/-- Settles O23. -/
theorem encAndDecAreInstancesOfProc : Obligations.EncAndDecAreInstancesOfProc := fun v s =>
  ⟨exec_enc_eq_proc v s, exec_dec_eq_proc v s, exec_proc_ten_eleven v s⟩

end Sys2Proof.Machine
end

section
/-! SUPPORT. The statements of 60_exceptions.md: the halted state (R91), the outcome of each check of a command (R85 to
R88), and their order (R92). -/

namespace Sys2Proof.Machine

/-! ### The halted state -/

/-- A halted engine discards a command. -/
theorem exec_of_halted {s : State} (herr : s.err ≠ 0) (i : Instr) : exec i s = .next s := by
  rcases exec_cases i s with ⟨-, e⟩ | ⟨h, -⟩ | ⟨h, -⟩ | ⟨h, -⟩ | ⟨h, -⟩ | ⟨h, -⟩
  · exact e
  all_goals exact absurd h herr

/-- A halted engine discards a word, legal or not. -/
theorem execute_of_halted {s : State} (herr : s.err ≠ 0) (cw : CommandWord) : execute cw s = .next s :=
  if_pos ((State.halted_iff s).2 herr)

/-- Settles O29. -/
theorem haltedEngineDiscardsCommands : Obligations.HaltedEngineDiscardsCommands := fun _ herr =>
  ⟨exec_of_halted herr, execute_of_halted herr⟩

/-- Words issued to a halted engine leave it as it is, by induction on the words. -/
theorem runActions_of_halted {s : State} (hd : s.resetDone = true) (herr : s.err ≠ 0) {as : List HostAction}
    (hissue : ∀ a ∈ as, a.isIssue = true) : runActions as s = .next (s.withInputs []) := by
  induction as with
  | nil => exact runActions_nil s
  | cons a as ih =>
    obtain ⟨ha, has⟩ := List.forall_mem_cons.1 hissue
    cases a with
    | reset => simp [HostAction.isIssue] at ha
    | issue cw =>
      have hperf : perform (.issue cw) s = .next s := (if_pos hd).trans (execute_of_halted herr cw)
      exact (runActions_cons_of_next hperf as).trans (ih has)

theorem runActions_reset (s : State) : runActions [.reset] s = .next (s.applyReset.withInputs []) :=
  (runActions_cons_of_next rfl []).trans (runActions_nil _)

/-- Settles O30: the Reset acts on the state in which the words have left the engine, which is the halted one. -/
theorem onlyResetLeavesTheHaltedState : Obligations.OnlyResetLeavesTheHaltedState := by
  intro as s hd herr hissue
  have hhalted := runActions_of_halted hd herr hissue
  refine ⟨hhalted, (s.withInputs []).applyReset.withInputs [], ?_, rfl, rfl, rfl⟩
  calc runActions (as ++ [.reset]) s = runActions [.reset] (s.withInputs []) :=
        runsComposeInIssueOrder as [.reset] s _ hhalted
    _ = _ := runActions_reset _

/-! ### The outcome of each check -/

/-- R85: an illegal word raises IllegalCommand. -/
theorem execute_of_illegal_of_running {s : State} (herr : s.err = 0) {cw : CommandWord} {why : IllegalWord}
    (hdec : decode cw = .error why) : execute cw s = .next { s with err := 1 } :=
  (execute_of_illegal hdec s).trans (if_neg (not_not.2 herr))

/-- Settles O32. -/
theorem stepRaisesIllegalCommand : Obligations.StepRaisesIllegalCommand := by
  intro s cw why rest hd herr hin hdec
  calc step s = perform (.issue cw) (s.withInputs rest) := step_of_input hin
    _ = execute cw (s.withInputs rest) := if_pos hd
    _ = .next { s.withInputs rest with err := 1 } :=
        execute_of_illegal_of_running (s := s.withInputs rest) herr hdec

/-- R86: an illegal operand raises RangeViolation, whatever the key state. -/
theorem exec_of_illegalOperand {s : State} (herr : s.err = 0) {i : Instr} (hwf : i.wellFormed = false) :
    exec i s = .next { s with err := 2 } :=
  (rangeViolationIffAnOperandIsIllegal i s herr).2 hwf

/-- The operands of `PROC` are legal when neither round field is 0 (R45). -/
theorem wellFormed_proc_iff_ne_zero (v : BitVec 12) (sr er : Nibble) :
    (Instr.proc v sr er).wellFormed = true ↔ sr ≠ 0 ∧ er ≠ 0 :=
  (wellFormed_proc_iff v sr er).trans (and_congr (BitVec.toNat_inj (y := 0)).not (BitVec.toNat_inj (y := 0)).not)

/-- Settles O22. -/
theorem procRefusesRoundZero : Obligations.ProcRefusesRoundZero := by
  intro v sr er s herr hzero
  have hwf : (Instr.proc v sr er).wellFormed = false := by
    rw [Bool.eq_false_iff, ne_eq, wellFormed_proc_iff_ne_zero, not_and_or, not_ne_iff, not_ne_iff]
    exact hzero
  exact exec_of_illegalOperand herr hwf

/-- R87: without a key, a cipher command with legal operands raises NoKey. -/
theorem exec_cipher_of_unkeyed {s : State} (herr : s.err = 0) (hkv : s.kv = false) {i : Instr}
    (hwf : i.wellFormed = true) (hcipher : ¬∃ k, i = .ldkey k) : exec i s = .next { s with err := 3 } := by
  rcases exec_cases i s with ⟨h, -⟩ | ⟨-, h, -⟩ | ⟨-, -, h, -⟩ | ⟨-, -, -, -, e⟩ | ⟨-, -, data, k, h, -⟩ | ⟨-, h, -⟩
  · exact absurd herr h
  · simp [hwf] at h
  · exact absurd h hcipher
  · exact e
  · exact absurd ⟨data, h⟩ hcipher
  · simp [hkv] at h

/-- Settles O21. -/
theorem cipherWithoutAKeyRaisesNoKey : Obligations.CipherWithoutAKeyRaisesNoKey := by
  intro v sr er s herr hkv hsr her
  exact ⟨exec_cipher_of_unkeyed herr hkv rfl (by simp), exec_cipher_of_unkeyed herr hkv rfl (by simp),
    exec_cipher_of_unkeyed herr hkv ((wellFormed_proc_iff_ne_zero v sr er).2 ⟨hsr, her⟩) (by simp)⟩

/-- R88: with a key, `LDKEY` with a legal operand raises KeyLocked. -/
theorem exec_ldkey_of_keyed_of_wellFormed {s : State} (herr : s.err = 0) (hkv : s.kv = true) {data : BitVec 12}
    (hwf : (Instr.ldkey data).wellFormed = true) : exec (.ldkey data) s = .next { s with err := 4 } := by
  obtain ⟨k, hk⟩ := exists_masterKey_of_lt ((wellFormed_ldkey_iff data).1 hwf)
  exact exec_ldkey_of_keyed herr hkv hk

/-- A command that meets none of the conditions of R86 to R88 raises no fault. -/
theorem exec_of_no_fault {s : State} (herr : s.err = 0) {i : Instr} (hwf : i.wellFormed = true)
    (hlocked : ¬((∃ k, i = .ldkey k) ∧ s.kv = true)) (hnoKey : ¬((¬∃ k, i = .ldkey k) ∧ s.kv = false)) :
    ∃ t, exec i s = .next t ∧ t.err = 0 := by
  rcases exec_cases i s with ⟨h, -⟩ | ⟨-, h, -⟩ | ⟨-, -, hl, hkv, -⟩ | ⟨-, -, hc, hkv, -⟩ |
    ⟨-, -, data, k, -, -, -, e⟩ | ⟨-, -, -, -, d, -, e⟩
  · exact absurd herr h
  · simp [hwf] at h
  · exact absurd ⟨hl, hkv⟩ hlocked
  · exact absurd ⟨hc, hkv⟩ hnoKey
  · exact ⟨_, e, herr⟩
  · exact ⟨_, e, herr⟩

/-! ### Their order, and what a fault changes -/

/-- R99: with `rst = 1` the sample is a Reset, whatever stands on the other ports. -/
theorem takeSample_of_rst {p : PortSample} (hrst : p.rst = true) (s : State) :
    takeSample p s = .next s.applyReset := by
  have haction : p.action = some .reset := if_pos hrst
  rw [takeSample, haction]
  rfl

/-- Settles O27, one case per check in the order of R92. -/
theorem faultPriority : Obligations.FaultPriority := by
  refine ⟨fun cw s => ?_, fun p s hrst => takeSample_of_rst hrst s⟩
  split_ifs with hhalted
  · exact execute_of_halted hhalted cw
  · have herr : s.err = 0 := not_not.1 hhalted
    cases hdec : decode cw with
    | error why => exact execute_of_illegal_of_running herr hdec
    | ok i =>
      simp only [execute_of_decode hdec]
      split
      next hill => exact exec_of_illegalOperand herr hill
      next hlegal =>
        have hwf : i.wellFormed = true := Bool.eq_true_of_not_eq_false hlegal
        split_ifs with hlocked hnoKey
        · obtain ⟨⟨data, rfl⟩, hkv⟩ := hlocked
          exact exec_ldkey_of_keyed_of_wellFormed herr hkv hwf
        · obtain ⟨hcipher, hkv⟩ := hnoKey
          exact exec_cipher_of_unkeyed herr hkv hwf hcipher
        · exact exec_of_no_fault herr hwf hlocked hnoKey

/-- Settles O28: of the things a command can do, three leave `ERR` as it is, and the other three are the recording of
one fault each. -/
theorem faultsArePrecise : Obligations.FaultsArePrecise := by
  intro i s
  rcases exec_cases i s with ⟨-, e⟩ | ⟨herr, -, e⟩ | ⟨herr, -, -, -, e⟩ | ⟨herr, -, -, -, e⟩ |
    ⟨-, -, data, k, -, -, -, e⟩ | ⟨-, -, -, -, d, -, e⟩ <;> refine ⟨_, e, fun hne => ?_⟩
  · exact absurd rfl hne
  · exact ⟨herr, .inl rfl, rfl⟩
  · exact ⟨herr, .inr (.inr rfl), rfl⟩
  · exact ⟨herr, .inr (.inl rfl), rfl⟩
  · exact absurd rfl hne
  · exact absurd rfl hne

end Sys2Proof.Machine
end

section
/-! SUPPORT. The statements of 70_reset_and_hazards.md: Reset (R99), the totality of a step (R106), and the runs of a
keyed engine (R101, R103). -/

namespace Sys2Proof.Machine

/-! ### Runs of a keyed engine -/

/-- The engine is past its first Reset, has recorded no fault, and holds the key `k`. -/
structure State.RunningUnder (k : MasterKey) (s : State) : Prop where
  resetDone : s.resetDone = true
  err : s.err = 0
  kv : s.kv = true
  key : s.key = k

theorem State.RunningUnder.withResult {k : MasterKey} {s : State} (hs : s.RunningUnder k) (d : Block) :
    (s.withResult d).RunningUnder k :=
  ⟨hs.resetDone, hs.err, hs.kv, hs.key⟩

/-- A legal cipher command issued to a keyed running engine writes its result (R15, R101). -/
theorem State.RunningUnder.perform_cipher {k : MasterKey} {s : State} (hs : s.RunningUnder k) {i : Instr} {d : Block}
    (hres : cipherResult k i = some d) : perform (issueOf i) s = .next (s.withResult d) :=
  (perform_issueOf hs.resetDone i).trans (exec_cipher_of_keyed hs.err hs.kv (hs.key.symm ▸ hres))

/-- Legal cipher commands leave a keyed running engine keyed and running, by induction on the commands (R101, R103). -/
theorem State.RunningUnder.runActions_ciphers {k : MasterKey} {is : List Instr} {s : State} (hs : s.RunningUnder k)
    (hres : ∀ i ∈ is, (cipherResult k i).isSome = true) :
    ∃ t, runActions (is.map issueOf) s = .next t ∧ t.RunningUnder k := by
  induction is generalizing s with
  | nil => exact ⟨s.withInputs [], runActions_nil s, hs.resetDone, hs.err, hs.kv, hs.key⟩
  | cons i is ih =>
    obtain ⟨hi, his⟩ := List.forall_mem_cons.1 hres
    obtain ⟨d, hd⟩ := Option.isSome_iff_exists.1 hi
    obtain ⟨t, hrun, ht⟩ := ih (hs.withResult d) his
    exact ⟨t, (runActions_cons_of_next (hs.perform_cipher hd) _).trans hrun, ht⟩

/-- Settles O46: the commands before the last leave the engine keyed and running, and there the last writes its
result. -/
theorem keyedRunsNeverFault : Obligations.KeyedRunsNeverFault := by
  intro is last s hd herr hkv hres
  obtain ⟨his, hlast⟩ := List.forall_mem_append.1 hres
  obtain ⟨d, hresult⟩ := Option.isSome_iff_exists.1 (hlast last (List.mem_singleton_self last))
  obtain ⟨t, hrun, ht⟩ := State.RunningUnder.runActions_ciphers ⟨hd, herr, hkv, rfl⟩ his
  have hend : (t.withResult d).RunningUnder s.key := ht.withResult d
  refine ⟨(t.withResult d).withInputs [], ?_, beq_iff_eq.2 hend.err, hend.key, hend.kv, rfl, hresult⟩
  calc runActions ((is ++ [last]).map issueOf) s
      = runActions (is.map issueOf ++ [issueOf last]) s := by rw [List.map_append, List.map_singleton]
    _ = runActions [issueOf last] t := runsComposeInIssueOrder _ _ s t hrun
    _ = runActions [] (t.withResult d) := runActions_cons_of_next (ht.perform_cipher hresult) []
    _ = _ := runActions_nil _

/-! ### Every step completes -/

/-- After the first Reset an edge completes, whatever stands on the ports, and the engine stays past its first
Reset. -/
theorem takeSample_completes (p : PortSample) {s : State} (hd : s.resetDone = true) :
    ∃ t, takeSample p s = .next t ∧ t.resetDone = true := by
  rw [takeSample]
  cases p.action with
  | none => exact ⟨s, rfl, hd⟩
  | some a =>
    obtain ⟨t, hperf, -, hd'⟩ := perform_visible a hd
    exact ⟨t, hperf, hd'⟩

/-- Settles O39. -/
theorem everyStepCompletesAfterReset : Obligations.EveryStepCompletesAfterReset := by
  intro s hd
  cases hin : s.inputs with
  | nil => exact ⟨s, step_of_no_input hin, hd⟩
  | cons p rest =>
    rw [step_of_input hin]
    exact takeSample_completes p hd

/-! ### Reset -/

/-- Settles O33. -/
theorem resetOverridesAPresentedWord : Obligations.ResetOverridesAPresentedWord := by
  intro s valid cw rest hin
  have hstep : step s = .next (s.withInputs rest).applyReset := (step_of_input hin).trans (takeSample_of_rst rfl _)
  exact ⟨_, hstep, rfl, rfl, rfl, rfl, State.cmdReady_of_resetDone rfl, rfl, rfl⟩

/-- A Reset leaves the visible state of the reset state, whatever the engine held before it (R99). -/
theorem runActions_reset_visible (s : State) :
    ∃ t, runActions [.reset] s = .next t ∧ t.visible = State.reset.visible :=
  ⟨_, runActions_reset s, s.visible_applyReset⟩

/-- Settles O34: the last action of each of the three histories is a Reset. -/
theorem resetForgetsTheInstance : Obligations.ResetForgetsTheInstance := by
  intro s i
  obtain ⟨t, ht, hvist⟩ := runActions_reset_visible s
  obtain ⟨u, hexec, -, -⟩ := exec_visible i s
  obtain ⟨v, hv, hvisv⟩ := runActions_reset_visible u
  obtain ⟨w, hw, hvisw⟩ := runActions_reset_visible s.applyReset
  exact ⟨t, u, v, ht, hexec, hv, hvist, hvisv, w, (runActions_cons_of_next rfl [.reset]).trans hw, hvisw⟩

end Sys2Proof.Machine
end

section
/-! SUPPORT. The engine between power-up and its first Reset (R100, U9; log entry 6). -/

namespace Sys2Proof.Machine

/-- Before the first Reset an issued word is the one fault of the machine, whatever the word is. -/
theorem perform_issue_of_not_resetDone (cw : CommandWord) {s : State} (hd : s.resetDone = false) :
    perform (.issue cw) s = .fault .issuedBeforeReset :=
  if_neg (Bool.eq_false_iff.1 hd)

/-- Settles O36. -/
theorem noCommandBeforeTheFirstReset : Obligations.NoCommandBeforeTheFirstReset := by
  constructor
  · intro s cw rest hd hin
    calc step s = perform (.issue cw) (s.withInputs rest) := step_of_input hin
      _ = .fault .issuedBeforeReset := perform_issue_of_not_resetDone cw hd
  · have hstep : step (State.powerUp [⟨true, false, 0⟩]) = .next (State.powerUp []).applyReset :=
      (step_of_input rfl).trans (takeSample_of_rst rfl _)
    exact ⟨_, hstep, State.visible_applyReset _, State.applyReset_resetDone _⟩

end Sys2Proof.Machine
end
